-- ==== Sys2Proof/Word.lean ====
section
/-! DEFINITION. The bit vectors of the block (00_scope R6, 30_encoding R50, R51): every value is unsigned and
bit 0 is the least significant. -/

namespace Sys2Proof

/-- A 64-bit value: the `data` field, the response, and the storage that holds the state word (R50, R51, R56). -/
abbrev Word := BitVec 64

/-- The `idx` field of a command (R51, R53). -/
abbrev Index := BitVec 8

/-- The `op` field of a command (R51, R52). -/
abbrev Opcode := BitVec 8

/-- A byte of the state, as the serializer sends it (R6, R34). -/
abbrev Byte := BitVec 8

/-- One command as the host presents it, whole (R50). -/
abbrev CommandWord := BitVec 80

end Sys2Proof
end

