-- ==== Sys2Proof/Syntax.lean ====
section
/-! DEFINITION. The thirteen commands (30_encoding R52, R60, R62): one constructor per row of spec/opcode_table.json,
with the operands the row uses. -/

namespace Sys2Proof

/-- A command. An operand is the field of the command word as it stands, unsigned (R53, R54). -/
inductive Instr where
  /-- `dataWidth()` (R70). -/
  | datawidth
  /-- `get(bitIndex)` (R71). -/
  | get (idx : Index)
  /-- `set(bitIndex, value)` (R81). -/
  | set (idx : Index) (value : Word)
  /-- `setHigh(bitIndex)` (R82). -/
  | sethigh (idx : Index)
  /-- `setLow(bitIndex)` (R83). -/
  | setlow (idx : Index)
  /-- `invert(bitIndex)` (R84). -/
  | invertbit (idx : Index)
  /-- `setAllHigh()` (R90). -/
  | setallhigh
  /-- `setAllLow()` (R91). -/
  | setalllow
  /-- `invert()` (R92). -/
  | invertall
  /-- `setState(word)` (R94). -/
  | setstate (word : Word)
  /-- `getState()` (R72). -/
  | getstate
  /-- `write()` (R106). -/
  | write
  /-- `write(word)` (R107). -/
  | writew (word : Word)
  deriving DecidableEq, Repr

/-- The name the opcode table gives the command (R52, R60). -/
def Instr.mnemonic : Instr → String
  | .datawidth => "DATAWIDTH"
  | .get _ => "GET"
  | .set _ _ => "SET"
  | .sethigh _ => "SETHIGH"
  | .setlow _ => "SETLOW"
  | .invertbit _ => "INVERTBIT"
  | .setallhigh => "SETALLHIGH"
  | .setalllow => "SETALLLOW"
  | .invertall => "INVERTALL"
  | .setstate _ => "SETSTATE"
  | .getstate => "GETSTATE"
  | .write => "WRITE"
  | .writew _ => "WRITEW"

/-- The bit index a command uses, if it uses one (the column "uses `idx`" of R52). -/
def Instr.index? : Instr → Option Index
  | .datawidth => none
  | .get idx => some idx
  | .set idx _ => some idx
  | .sethigh idx => some idx
  | .setlow idx => some idx
  | .invertbit idx => some idx
  | .setallhigh => none
  | .setalllow => none
  | .invertall => none
  | .setstate _ => none
  | .getstate => none
  | .write => none
  | .writew _ => none

/-- The data a command uses, if it uses any (the column "uses `data`" of R52). -/
def Instr.data? : Instr → Option Word
  | .datawidth => none
  | .get _ => none
  | .set _ value => some value
  | .sethigh _ => none
  | .setlow _ => none
  | .invertbit _ => none
  | .setallhigh => none
  | .setalllow => none
  | .invertall => none
  | .setstate word => some word
  | .getstate => none
  | .write => none
  | .writew word => some word

/-- Whether a command commits, that is, drives the lines (R16: only WRITE and WRITEW call `Drive`). -/
def Instr.commits : Instr → Bool
  | .datawidth => false
  | .get _ => false
  | .set _ _ => false
  | .sethigh _ => false
  | .setlow _ => false
  | .invertbit _ => false
  | .setallhigh => false
  | .setalllow => false
  | .invertall => false
  | .setstate _ => false
  | .getstate => false
  | .write => true
  | .writew _ => true

end Sys2Proof
end

