-- ==== Sys2Proof/Decode.lean ====
section
/-! DEFINITION. The command word (30_encoding R51 to R55, R57, R58): its fields, the decoder, total on every 80-bit
word, and the encoder. -/

namespace Sys2Proof

/-- `cmd[79:72]` (R51). -/
def opField (w : CommandWord) : Opcode := w.extractLsb' 72 8

/-- `cmd[71:64]` (R51, R53). -/
def idxField (w : CommandWord) : Index := w.extractLsb' 64 8

/-- `cmd[63:0]` (R51, R54). -/
def dataField (w : CommandWord) : Word := w.extractLsb' 0 64

/-- The word with the three fields, `{op, idx, data}` (R51). -/
def commandWord (op : Opcode) (idx : Index) (data : Word) : CommandWord := op ++ idx ++ data

/-- Why a word is no command. -/
inductive DecodeError where
  /-- Its opcode is one of 0x0D to 0xFF (R57). -/
  | reserved (op : Opcode)
  deriving DecidableEq, Repr

/-- The decoder (R52, R58). Fields the row does not use are not looked at (R55). -/
def decode (w : CommandWord) : Except DecodeError Instr :=
  match (opField w).toNat with
  | 0x00 => .ok .datawidth
  | 0x01 => .ok (.get (idxField w))
  | 0x02 => .ok (.set (idxField w) (dataField w))
  | 0x03 => .ok (.sethigh (idxField w))
  | 0x04 => .ok (.setlow (idxField w))
  | 0x05 => .ok (.invertbit (idxField w))
  | 0x06 => .ok .setallhigh
  | 0x07 => .ok .setalllow
  | 0x08 => .ok .invertall
  | 0x09 => .ok (.setstate (dataField w))
  | 0x0A => .ok .getstate
  | 0x0B => .ok .write
  | 0x0C => .ok (.writew (dataField w))
  | _ => .error (.reserved (opField w))

/-- The opcode of a command (R52). -/
def Instr.opcode : Instr → Opcode
  | .datawidth => 0x00
  | .get _ => 0x01
  | .set _ _ => 0x02
  | .sethigh _ => 0x03
  | .setlow _ => 0x04
  | .invertbit _ => 0x05
  | .setallhigh => 0x06
  | .setalllow => 0x07
  | .invertall => 0x08
  | .setstate _ => 0x09
  | .getstate => 0x0A
  | .write => 0x0B
  | .writew _ => 0x0C

/-- The encoder: the word an assembler writes, with zeros in the unused fields (R52, R55). -/
def encode (i : Instr) : CommandWord :=
  commandWord i.opcode (i.index?.getD 0) (i.data?.getD 0)

/-- The decoder on a word numbered as spec/opcode_table.json numbers it. Every command is 80 bits (R59): bits the
row does not give, up to 80, are 0, and a longer word is no command. -/
def decodeTableWord (nbits w : Nat) : Option Instr :=
  if nbits ≤ 80 then
    match decode (BitVec.ofNat 80 (w % 2 ^ nbits)) with
    | .ok i => some i
    | .error _ => none
  else none

end Sys2Proof
end

