-- ==== Sys2Proof/Config.lean ====
section
/-! DEFINITION. The parameters of an instance (00_scope R5), constant for its life. There is no free value: nothing
in the block varies from run to run but the chain's first contents (93 U11), which `State.construct` takes. -/

namespace Sys2Proof

/-- `CHIPS`, the number of daisy-chained 8-bit registers: 1 to 8 and no other value, since R5 and D8 define no
instance for any other. -/
inductive ChipCount where
  | one | two | three | four | five | six | seven | eight
  deriving DecidableEq, Repr

/-- `STORAGE_POLICY` (R5, D7): the sizing table of the document, or always 64 bits. -/
inductive StoragePolicy where
  | table
  | wide64
  deriving DecidableEq, Repr

/-- What fixes an instance (R5, 10_state R20). No command changes any of it, and no command reads any of it but
`CHIPS`, through DATAWIDTH. -/
structure Params where
  /-- `CHIPS`. -/
  chips : ChipCount
  /-- `STORAGE_POLICY`. -/
  policy : StoragePolicy
  /-- `NREG`, the number of 8-bit registers physically in the attached chain; `CHIPS` in the configuration the
  document describes, any other number under R137. -/
  nreg : Nat
  /-- `DATA_PIN`, an opaque identifier. -/
  dataPin : Nat
  /-- `CLOCK_PIN`, an opaque identifier. -/
  clockPin : Nat
  /-- `LATCH_PIN`, an opaque identifier. -/
  latchPin : Nat
  deriving DecidableEq, Repr

end Sys2Proof
end

