-- ==== Sys2Proof/Machine/State.lean ====
section
/-! DEFINITION. The state of the machine as plain data (10_state R11 to R24): the block, the trace of its lines, the
attached chain and the command port. -/

namespace Sys2Proof.Machine

/-- The three output lines (00_scope R8). -/
inductive Line where
  | data
  | clock
  | latch
  deriving DecidableEq, Repr

/-- A line event `(line, level)` (R8); `true` is level 1, high (R6). -/
structure LineEvent where
  line : Line
  level : Bool
  deriving DecidableEq, Repr

/-- One bit per line: the levels `L` (R16), or the output enables `OE` (R18). -/
structure LineBits where
  data : Bool
  clock : Bool
  latch : Bool
  deriving DecidableEq, Repr

/-- Why the machine stops with a fault: it never does, "The block raises no exception, of any kind, on any command,
with any operand" (60_exceptions R120), so there is no constructor. Safe: nothing is left out. -/
inductive Fault where
  deriving DecidableEq, Repr

/-- Why the model gives a step no meaning. -/
inductive Refusal where
  /-- Raised by an arm of `exec` whose command has no meaning yet; no arm does. Safe. -/
  | notModelled (mnemonic : String)
  /-- Raised by `step` on a command word whose opcode is 0x0D to 0xFF: "A model should refuse such a command"
  (30_encoding R57, 93 U12). Safe: the block goes on, so nothing false can be proved. -/
  | reservedOpcode (op : Opcode)
  /-- Raised by `step` on an instance whose three pins are not pairwise distinct, which is no instance of the spec
  (00_scope R5, D24). Safe. -/
  | sharedPins
  deriving DecidableEq, Repr

/-- Everything the spec gives the machine, and the parameters of the instance. -/
structure State where
  /-- The parameters (R5, R20). -/
  params : Params
  /-- `S`, the state word (R12): the low `SW` bits; the bits above are 0 (`Memory.wf`). -/
  word : Word
  /-- `L`, the level last driven onto each line (R16). -/
  lines : LineBits
  /-- `OE`, the output enables (R18). -/
  oe : LineBits
  /-- `T`, every line event since reset, oldest first (R17). -/
  trace : List LineEvent
  /-- `SR`, the stages of the chain, stage 0 first (R19, R131). -/
  sr : List Bool
  /-- `OUT`, the output latches of the chain, output 0 first (R19). -/
  out : List Bool
  /-- The command words the host has still to present, the next one first (R50, R165). -/
  pending : List CommandWord
  /-- `rsp_valid`: a command has completed and `rsp` is its response (R63). -/
  rspValid : Bool
  /-- `rsp`, the response of the last completed command (R56). -/
  rsp : Word
  deriving DecidableEq, Repr

/-- Reset is construction (70_reset_and_hazards R150): the state word 0, the lines outputs and low, the trace empty,
nothing sent (R152), so that the chain keeps whatever it held, `sr` and `out` (R19, R24). -/
def State.construct (params : Params) (sr out : List Bool) : State where
  params := params
  word := 0
  lines := ⟨false, false, false⟩
  oe := ⟨true, true, true⟩
  trace := []
  sr := sr
  out := out
  pending := []
  rspValid := false
  rsp := 0

/-- The instance of the document's first worked scenario, `CHAIN chips=2 policy=table` (95 P1), with `NREG = CHIPS`.
DESIGN CHOICE, unsafe: the spec fixes no instance (notes/assumptions/2.md); no statement rests on it. -/
def referenceInstance : Params := ⟨.two, .table, 2, 0, 1, 2⟩

/-- The machine right after reset. DESIGN CHOICE, unsafe: the spec leaves the chain's contents open (R19) and zeros
stand here (notes/assumptions/3.md); statements about reset are over `State.construct` with any contents. -/
def State.reset : State :=
  State.construct referenceInstance (List.replicate 16 false) (List.replicate 16 false)

/-- Replace the state word. -/
def State.setWord (w : Word) (s : State) : State := { s with word := w }

/-- Replace the line levels. -/
def State.setLines (l : LineBits) (s : State) : State := { s with lines := l }

/-- Append an event to the trace. -/
def State.record (e : LineEvent) (s : State) : State := { s with trace := s.trace ++ [e] }

/-- Replace the stages of the chain. -/
def State.setSr (bits : List Bool) (s : State) : State := { s with sr := bits }

/-- Replace the output latches of the chain. -/
def State.setOut (bits : List Bool) (s : State) : State := { s with out := bits }

/-- Replace the commands still to be presented. -/
def State.setPending (cmds : List CommandWord) (s : State) : State := { s with pending := cmds }

/-- Present a response, `rsp <- v` (00_scope R7, 30_encoding R56). -/
def State.respond (v : Word) (s : State) : State := { s with rspValid := true, rsp := v }

end Sys2Proof.Machine
end

