-- ==== Sys2Proof/Machine/Ops.lean ====
section
/-! DEFINITION. The shared operations: the sizing of the state word (00_scope R5, 20_memory R47), the lines and the
chain that hangs on them (43_commit_ops R100 to R105, 60_exceptions R130 to R135), and the command port (30_encoding
R50, R63). There is no operation that takes an exception and none that returns from one: the block raises none and
has no return command (R120, R124, R125). -/

namespace Sys2Proof

/-! ### Sizing -/

/-- `CHIPS` as a number (R5). -/
def ChipCount.toNat : ChipCount → Nat
  | .one => 1
  | .two => 2
  | .three => 3
  | .four => 4
  | .five => 5
  | .six => 6
  | .seven => 7
  | .eight => 8

/-- `DW = CHIPS * 8`, the number of addressable bits (R5). -/
def Params.dataWidth (p : Params) : Nat := p.chips.toNat * 8

/-- `SW`, the storage width: the sizing table, or 64 (R5). -/
def Params.storageWidth (p : Params) : Nat :=
  match p.policy, p.chips with
  | .wide64, _ => 64
  | .table, .one => 8
  | .table, .two => 16
  | .table, .three => 32
  | .table, .four => 32
  | .table, .five => 64
  | .table, .six => 64
  | .table, .seven => 64
  | .table, .eight => 64

/-- `2^SW - 1`, all ones at the storage width (R47). -/
def Params.allOnes (p : Params) : Word := BitVec.allOnes 64 >>> (64 - p.storageWidth)

/-- `trunc_SW(w)`, narrowing and not saturation (R6, R47). -/
def Params.truncate (p : Params) (w : Word) : Word := w &&& p.allOnes

/-- "pairwise distinct" pin identifiers (R5, D24). -/
def Params.pinsDistinct (p : Params) : Bool :=
  p.dataPin != p.clockPin && p.dataPin != p.latchPin && p.clockPin != p.latchPin

namespace Machine

/-- The canonical form of the one memory of the block, the state word as `SW` one-bit cells (R30): there is no cell
at or above `SW` (R32), and none of the 64 bits that hold the word is set there. -/
abbrev Memory.wf (s : State) : Prop := s.params.truncate s.word = s.word

/-! ### The chain of shift registers -/

/-- The stages after `Shift()`: each takes the bit of the one before it, stage 0 takes `level`, the last bit is lost
(R131, R133). -/
def shiftStages (level : Bool) (sr : List Bool) : List Bool := (level :: sr).take sr.length

/-- `Shift()`: on a rising edge of `CLOCK` (R133). -/
def chainShift (s : State) : State := s.setSr (shiftStages s.lines.data s.sr)

/-- `Latch()`: on a rising edge of `LATCH` (R134). -/
def chainLatch (s : State) : State := s.setOut s.sr

/-- The chain's step for the event `(line, level)`, `old` being the level of that line before it (R132, R135). -/
def chainReact (old : Bool) (e : LineEvent) (s : State) : State :=
  match e.line, old, e.level with
  | .clock, false, true => chainShift s
  | .latch, false, true => chainLatch s
  | _, _, _ => s

/-! ### The lines -/

/-- The bit of a line. -/
def LineBits.get (l : LineBits) : Line → Bool
  | .data => l.data
  | .clock => l.clock
  | .latch => l.latch

/-- Replace the bit of a line; the others stay. -/
def LineBits.put (l : LineBits) (line : Line) (level : Bool) : LineBits :=
  match line with
  | .data => { l with data := level }
  | .clock => { l with clock := level }
  | .latch => { l with latch := level }

/-- What the block does to the lines and the trace for an event: `L.line <- level`, and the event at the end of `T`
whether or not the level changes (R16, R17, R100). -/
def driveLine (e : LineEvent) (s : State) : State :=
  (s.setLines (s.lines.put e.line e.level)).record e

/-- `Drive(line, level)` (R100), and then the chain's step for the event, "after the block has updated `L` for that
event" (R130). -/
def drive (line : Line) (level : Bool) (s : State) : State :=
  chainReact (s.lines.get line) ⟨line, level⟩ (driveLine ⟨line, level⟩ s)

/-- `PulseClock()` (R101). -/
def pulseClock (s : State) : State := drive .clock false (drive .clock true s)

/-- `PulseLatch()` (R102). -/
def pulseLatch (s : State) : State := drive .latch false (drive .latch true s)

/-- One turn of the loop of R103: the data line to the bit, then a clock pulse. -/
def sendBit (bit : Bool) (s : State) : State := pulseClock (drive .data bit s)

/-- `ShiftOutByteMSBFirst(b)`: bit 7 first, bit 0 last (R103). -/
def shiftOutByteMsbFirst (b : Byte) (s : State) : State :=
  [7, 6, 5, 4, 3, 2, 1, 0].foldl (fun t k => sendBit (b.getLsbD k) t) s

/-- Byte `i` of the state, `S[8*i+7 : 8*i]` (R34). -/
def byteOf (w : Word) (i : Nat) : Byte := w.extractLsb' (8 * i) 8

/-- The loop of `Serialize()` over the byte indices still to be sent (R105). -/
def shiftOutBytes : List Nat → State → State
  | [], s => s
  | i :: rest, s => shiftOutBytes rest (shiftOutByteMsbFirst (byteOf s.word i) s)

/-- `Serialize()`: bytes 0 to `CHIPS - 1` in ascending order, then one latch pulse (R105). -/
def serialize (s : State) : State :=
  pulseLatch (shiftOutBytes (List.range s.params.chips.toNat) s)

/-! ### The command port -/

/-- `cmd_valid`: the host presents a command (R63). -/
def State.cmdValid (s : State) : Bool := !s.pending.isEmpty

/-- `cmd_ready`: between two steps no command is running, since a command is one step (R63, R109). -/
def State.cmdReady (_ : State) : Bool := true

/-- The host presents `cmd` before whatever it has still to present (R50). -/
def State.present (cmd : CommandWord) (s : State) : State := s.setPending (cmd :: s.pending)

/-- What the port gives the block for a step: an instance that is none (R5, D24), no command, a word with a reserved
opcode (R57), or a command, with the state in which the word has been taken (R63). -/
inductive Taken where
  | noInstance
  | idle
  | reserved (op : Opcode)
  | command (i : Instr) (s : State)
  deriving DecidableEq, Repr

/-- Take the next command of the port, whole (R50, R63). -/
def State.take (s : State) : Taken :=
  if s.params.pinsDistinct then
    match s.pending with
    | [] => .idle
    | cmd :: rest =>
      match decode cmd with
      | .ok i => .command i (s.setPending rest)
      | .error (.reserved op) => .reserved op
  else .noInstance

end Machine

end Sys2Proof
end

