-- ==== Sys2Proof/Machine/Operands.lean ====
section
/-! DEFINITION. The operand forms and the views of the state word (00_scope R7, 20_memory R30, R36, R47, R48): one
bit at an absolute index, `n` bits at a bit address, the whole word. -/

namespace Sys2Proof.Machine

/-- `MemRead(addr, n) = S[addr+n-1 : addr]` (R7), defined for `addr + n <= SW`. -/
def memRead (addr n : Nat) (s : State) : BitVec n := s.word.extractLsb' addr n

/-- `MemWrite(addr, n, v)`: `trunc_n(v)` to the bits from `addr` on, the others kept (R7), defined for
`addr + n <= SW`. -/
def memWrite (addr n : Nat) (v : Word) (s : State) : State :=
  let field : Word := (BitVec.allOnes n).setWidth 64 <<< addr
  s.setWord (s.params.truncate ((s.word &&& ~~~field) ||| ((v <<< addr) &&& field)))

/-- The mask `1 << idx` at width `SW`: 0 for an index at or above `SW` (R47, R38, D12). -/
def bitMask (p : Params) (idx : Index) : Word :=
  if idx.toNat < p.storageWidth then (1#64 : Word) <<< idx.toNat else 0

/-- The bit a GET reads: `S[idx]` below `SW`, 0 where there is no cell (R38, R71). -/
def readBit (idx : Index) (s : State) : Bool :=
  if idx.toNat < s.params.storageWidth then s.word.getLsbD idx.toNat else false

/-- `S | (1 << idx)` (R47, R82). -/
def raiseBit (idx : Index) (s : State) : State := s.setWord (s.word ||| bitMask s.params idx)

/-- `S & ~(1 << idx)` (R47, R83). -/
def clearBit (idx : Index) (s : State) : State := s.setWord (s.word &&& ~~~ bitMask s.params idx)

/-- `S ^ (1 << idx)` (R47, R84). -/
def flipBit (idx : Index) (s : State) : State := s.setWord (s.word ^^^ bitMask s.params idx)

/-- `S <- trunc_SW(v)`, the whole word (R54, R94). -/
def storeWord (v : Word) (s : State) : State := s.setWord (s.params.truncate v)

end Sys2Proof.Machine
end

