-- ==== Sys2Proof/Machine/Flags.lean ====
section
/-! DEFINITION. "The block has no status flags, no condition codes, no predicates" (10_state R15), so there is no flag
computation. What stands here is the only test of a data value in the block (20_memory R47). -/

namespace Sys2Proof.Machine

/-- SET's test `data != 0`, over all 64 bits (R47, R54, R81). -/
def isNonzero (value : Word) : Bool := value != 0

/-- A truth value as a response: 1 for "true" and 0 for "false" (30_encoding R56). -/
def truthResponse (b : Bool) : Word := if b then 1 else 0

end Sys2Proof.Machine
end

