-- ==== Sys2Proof/Machine/Bit.lean ====
section
/-! DEFINITION. The single-bit commands (41_bit_ops R80 to R84), on every index: in range, storage-only, and outside
the storage, where they change nothing (20_memory R38). -/

namespace Sys2Proof.Machine

/-- SET: high if `value` is nonzero, else low (R81). -/
def execSet (idx : Index) (value : Word) (s : State) : Host.Outcome State Fault Refusal :=
  .next ((if isNonzero value then raiseBit idx s else clearBit idx s).respond 0)

/-- SETHIGH (R82). -/
def execSethigh (idx : Index) (s : State) : Host.Outcome State Fault Refusal :=
  .next ((raiseBit idx s).respond 0)

/-- SETLOW (R83). -/
def execSetlow (idx : Index) (s : State) : Host.Outcome State Fault Refusal :=
  .next ((clearBit idx s).respond 0)

/-- INVERTBIT (R84). -/
def execInvertbit (idx : Index) (s : State) : Host.Outcome State Fault Refusal :=
  .next ((flipBit idx s).respond 0)

end Sys2Proof.Machine
end

