-- ==== Sys2Proof/Machine/Bulk.lean ====
section
/-! DEFINITION. The whole-word commands (42_bulk_ops R90 to R94): each writes all `SW` bits of the state word, the
storage-only ones too. -/

namespace Sys2Proof.Machine

/-- SETALLHIGH: `S <- 2^SW - 1` (R90). -/
def execSetallhigh (s : State) : Host.Outcome State Fault Refusal :=
  .next ((s.setWord s.params.allOnes).respond 0)

/-- SETALLLOW: `S <- 0` (R91). -/
def execSetalllow (s : State) : Host.Outcome State Fault Refusal :=
  .next ((s.setWord 0).respond 0)

/-- INVERTALL: `S <- ~S` at width `SW` (R92). -/
def execInvertall (s : State) : Host.Outcome State Fault Refusal :=
  .next ((storeWord (~~~ s.word) s).respond 0)

/-- SETSTATE: `S <- trunc_SW(data)` (R94). -/
def execSetstate (word : Word) (s : State) : Host.Outcome State Fault Refusal :=
  .next ((storeWord word s).respond 0)

end Sys2Proof.Machine
end

