-- ==== Sys2Proof/Machine/Commit.lean ====
section
/-! DEFINITION. The commit commands (43_commit_ops R106, R107): one step of the block each, from the first `Drive` to
the last (R109). -/

namespace Sys2Proof.Machine

/-- WRITE: `Serialize()` (R106). -/
def execWrite (s : State) : Host.Outcome State Fault Refusal :=
  .next ((serialize s).respond 0)

/-- WRITEW: `S <- trunc_SW(data)`, then `Serialize()`, which reads the new state (R107). -/
def execWritew (word : Word) (s : State) : Host.Outcome State Fault Refusal :=
  .next ((serialize (storeWord word s)).respond 0)

end Sys2Proof.Machine
end

