-- ==== Sys2Proof/Machine/Query.lean ====
section
/-! DEFINITION. The query commands (40_query_ops R70 to R72): they change nothing but the response. -/

namespace Sys2Proof.Machine

/-- DATAWIDTH: `rsp <- zext_64(DW)` (R70). -/
def execDatawidth (s : State) : Host.Outcome State Fault Refusal :=
  .next (s.respond (BitVec.ofNat 64 s.params.dataWidth))

/-- GET: `rsp <- zext_64(S[idx])`, or 0 where there is no such bit (R71). -/
def execGet (idx : Index) (s : State) : Host.Outcome State Fault Refusal :=
  .next (s.respond (truthResponse (readBit idx s)))

/-- GETSTATE: `rsp <- zext_64(S)` (R72). -/
def execGetstate (s : State) : Host.Outcome State Fault Refusal :=
  .next (s.respond s.word)

end Sys2Proof.Machine
end

