-- ==== Sys2Proof/Machine/Dispatch.lean ====
section
/-! DEFINITION. One arm per command (30_encoding R52). -/

namespace Sys2Proof.Machine

def exec (i : Instr) (s : State) : Host.Outcome State Fault Refusal :=
  match i with
  | .datawidth => Sys2Proof.Machine.execDatawidth s
  | .get idx => Sys2Proof.Machine.execGet idx s
  | .set idx value => Sys2Proof.Machine.execSet idx value s
  | .sethigh idx => Sys2Proof.Machine.execSethigh idx s
  | .setlow idx => Sys2Proof.Machine.execSetlow idx s
  | .invertbit idx => Sys2Proof.Machine.execInvertbit idx s
  | .setallhigh => Sys2Proof.Machine.execSetallhigh s
  | .setalllow => Sys2Proof.Machine.execSetalllow s
  | .invertall => Sys2Proof.Machine.execInvertall s
  | .setstate word => Sys2Proof.Machine.execSetstate word s
  | .getstate => Sys2Proof.Machine.execGetstate s
  | .write => Sys2Proof.Machine.execWrite s
  | .writew word => Sys2Proof.Machine.execWritew word s

end Sys2Proof.Machine
end

