-- ==== Sys2Proof/Machine/Step.lean ====
section
/-! DEFINITION. One step of the machine: the next command of the port, executed to completion (10_state R10, 20_memory
R39). -/

namespace Sys2Proof.Machine

/-- Take a command and execute it. With none presented the block "is idle with its state held" (60_exceptions R142,
70_reset_and_hazards R165). -/
def step (s : State) : Host.Outcome State Fault Refusal :=
  match s.take with
  | .noInstance => .refused .sharedPins
  | .idle => .next s
  | .reserved op => .refused (.reservedOpcode op)
  | .command i t => exec i t

/-- The state in which the host presents, next, the command whose bits are `w`; bits above `nbits` are 0. The block
fetches nothing (R45): this stands for the host's move (notes/assumptions/1.md). -/
def State.withFetchWord (s : State) (nbits w : Nat) : State :=
  s.present (BitVec.ofNat 80 (w % 2 ^ nbits))

end Sys2Proof.Machine
end

