-- ==== Sys2Proof/Machine/Assembler.lean ====
section
/-! DEFINITION. The textual form of commands and of an instance (30_encoding R60, D26): one line read at a time, a
line written for a command, and a listing loaded as a run, that is, construction and the commands of its lines
(70_reset_and_hazards R165). -/

namespace Sys2Proof.Machine

/-- What separates words on a line. -/
def isBlank (c : Char) : Bool := c == ' ' || c == '\t'

/-- "`;` starts a comment" (R60). -/
def dropComment (line : List Char) : List Char := line.takeWhile (fun c => c != ';')

/-- "the arrow and what follows are not part of the command" (R60). DESIGN CHOICE (notes/assumptions/21.md): R60 writes
an arrow after a command that returns a value; here it is cut from every line, whatever stands before it. -/
def dropArrow : List Char → List Char
  | [] => []
  | '-' :: '>' :: _ => []
  | c :: rest => c :: dropArrow rest

/-- Without the blanks at either end. -/
def trim (cs : List Char) : List Char := ((cs.dropWhile isBlank).reverse.dropWhile isBlank).reverse

/-- The pieces between the characters that satisfy `sep`. -/
def pieces (sep : Char → Bool) : List Char → List (List Char)
  | [] => [[]]
  | c :: rest =>
    if sep c then [] :: pieces sep rest
    else
      match pieces sep rest with
      | [] => [[c]]
      | p :: ps => (c :: p) :: ps

/-- The value of a digit, up to base 16. -/
def digitValue (c : Char) : Nat :=
  if c.isDigit then c.toNat - '0'.toNat
  else if 'a' ≤ c ∧ c ≤ 'f' then c.toNat - 'a'.toNat + 10
  else if 'A' ≤ c ∧ c ≤ 'F' then c.toNat - 'A'.toNat + 10
  else 16

/-- The value of a run of digits, none if a character is no digit of the base. -/
def digitsValue (base : Nat) : Nat → List Char → Option Nat
  | acc, [] => some acc
  | acc, c :: rest =>
    if digitValue c < base then digitsValue base (base * acc + digitValue c) rest else none

/-- "Operands are unsigned numerals, decimal or `0x` hexadecimal" (R60). Either case of a hexadecimal digit, and a small
`x` only, are a DESIGN CHOICE (notes/assumptions/18.md). -/
def numeral : List Char → Option Nat
  | [] => none
  | ['0', 'x'] => none
  | '0' :: 'x' :: digits => digitsValue 16 0 digits
  | digits => digitsValue 10 0 digits

/-- An index operand: 8 bits (R51); a larger numeral is none (DESIGN CHOICE, notes/assumptions/18.md). -/
def indexOperand (cs : List Char) : Option Index :=
  match numeral cs with
  | some n => if n < 2 ^ 8 then some (BitVec.ofNat 8 n) else none
  | none => none

/-- A word or value operand: 64 bits (R51); a larger numeral is none (DESIGN CHOICE, notes/assumptions/18.md). -/
def dataOperand (cs : List Char) : Option Word :=
  match numeral cs with
  | some n => if n < 2 ^ 64 then some (BitVec.ofNat 64 n) else none
  | none => none

/-- The command a mnemonic and its operands spell, "in the order the document gives them" (R60). -/
def spelled (name : List Char) (operands : List (List Char)) : Option Instr :=
  match String.ofList name, operands with
  | "DATAWIDTH", [] => some .datawidth
  | "GET", [a] => (indexOperand a).map .get
  | "SET", [a, b] =>
    match indexOperand a, dataOperand b with
    | some idx, some value => some (.set idx value)
    | _, _ => none
  | "SETHIGH", [a] => (indexOperand a).map .sethigh
  | "SETLOW", [a] => (indexOperand a).map .setlow
  | "INVERTBIT", [a] => (indexOperand a).map .invertbit
  | "SETALLHIGH", [] => some .setallhigh
  | "SETALLLOW", [] => some .setalllow
  | "INVERTALL", [] => some .invertall
  | "SETSTATE", [a] => (dataOperand a).map .setstate
  | "GETSTATE", [] => some .getstate
  | "WRITE", [] => some .write
  | "WRITEW", [a] => (dataOperand a).map .writew
  | _, _ => none

/-- `key=value`: the value, if the key is this one, with no blank about the sign (DESIGN CHOICE,
notes/assumptions/18.md). -/
def keyed (key : String) (cs : List Char) : Option (List Char) :=
  match pieces (fun c => c == '=') cs with
  | [k, v] => if k = key.toList then some v else none
  | _ => none

/-- `<CHIPS>`: 1 to 8 (R5). -/
def chipCount (n : Nat) : Option ChipCount :=
  match n with
  | 1 => some .one
  | 2 => some .two
  | 3 => some .three
  | 4 => some .four
  | 5 => some .five
  | 6 => some .six
  | 7 => some .seven
  | 8 => some .eight
  | _ => none

/-- `<table|wide64>` (R5). -/
def storagePolicy (cs : List Char) : Option StoragePolicy :=
  if cs = "table".toList then some .table
  else if cs = "wide64".toList then some .wide64
  else none

/-- The operands of a `CHAIN` header: `chips` and `policy`, and then all three pins or none (R60). `NREG` is `CHIPS`
(R5); pins not given are 0, 1 and 2, since they "have no effect on any response or event" (R60). DESIGN CHOICE: the
order of the keys and the pins not given (notes/assumptions/18.md), and that an `<id>` is an unsigned numeral, of any
size (notes/assumptions/20.md): R5 calls the identifiers opaque integers or handles and R60 gives them no form. DESIGN
CHOICE too: `<CHIPS>` is any numeral, decimal or `0x` hexadecimal, of value 1 to 8, since R60 gives a form to a command's
operands and none to it (notes/assumptions/23.md). -/
def instanceOf : List (List Char) → Option Params
  | [c, p] =>
    match ((keyed "chips" c).bind numeral).bind chipCount, (keyed "policy" p).bind storagePolicy with
    | some chips, some policy => some ⟨chips, policy, chips.toNat, 0, 1, 2⟩
    | _, _ => none
  | [c, p, d, k, l] =>
    match ((keyed "chips" c).bind numeral).bind chipCount, (keyed "policy" p).bind storagePolicy,
      (keyed "data" d).bind numeral, (keyed "clock" k).bind numeral, (keyed "latch" l).bind numeral with
    | some chips, some policy, some data, some clock, some latch =>
      some ⟨chips, policy, chips.toNat, data, clock, latch⟩
    | _, _, _, _, _ => none
  | _ => none

/-- What a line says. -/
inductive SourceLine where
  /-- Nothing but a comment, an arrow or blanks (DESIGN CHOICE for the arrow, notes/assumptions/21.md). -/
  | blank
  /-- The header of an instance. -/
  | chain (params : Params)
  | command (i : Instr)
  /-- Neither. -/
  | malformed
  deriving DecidableEq, Repr

/-- "One command per line" (R60). Where blanks may stand is a DESIGN CHOICE (notes/assumptions/18.md). -/
def readLine (line : List Char) : SourceLine :=
  let body := trim (dropArrow (dropComment line))
  let name := body.takeWhile (fun c => !isBlank c)
  let rest := trim (body.dropWhile (fun c => !isBlank c))
  if name = [] then .blank
  else if name = "CHAIN".toList then
    match instanceOf ((pieces isBlank rest).filter (fun w => w != [])) with
    | some params => .chain params
    | none => .malformed
  else
    match spelled name (if rest = [] then [] else (pieces (fun c => c == ',') rest).map trim) with
    | some i => .command i
    | none => .malformed

/-- The commands of a listing, in order; none if a line is neither a command nor blank. -/
def readCommands : List (List Char) → Option (List Instr)
  | [] => some []
  | line :: rest =>
    match readLine line, readCommands rest with
    | .blank, some is => some is
    | .command i, some is => some (i :: is)
    | _, _ => none

/-- A run (R165): the instance of the header is constructed on a chain that holds `sr` and `out`, and the host
presents the commands of the lines after it. DESIGN CHOICE (notes/assumptions/22.md): the header is the very first line,
R60 being silent on what may precede it; blank lines after it are skipped. -/
def loadListing (sr out : List Bool) : List (List Char) → Option State
  | [] => none
  | header :: lines =>
    match readLine header, readCommands lines with
    | .chain params, some is => some ((State.construct params sr out).setPending (is.map encode))
    | _, _ => none

/-- The operands of a command, in decimal where R60 allows `0x` too (DESIGN CHOICE, notes/assumptions/18.md). -/
def operandText : Instr → List Char
  | .datawidth => []
  | .get idx => ' ' :: Nat.toDigits 10 idx.toNat
  | .set idx value => ' ' :: Nat.toDigits 10 idx.toNat ++ [',', ' '] ++ Nat.toDigits 10 value.toNat
  | .sethigh idx => ' ' :: Nat.toDigits 10 idx.toNat
  | .setlow idx => ' ' :: Nat.toDigits 10 idx.toNat
  | .invertbit idx => ' ' :: Nat.toDigits 10 idx.toNat
  | .setallhigh => []
  | .setalllow => []
  | .invertall => []
  | .setstate word => ' ' :: Nat.toDigits 10 word.toNat
  | .getstate => []
  | .write => []
  | .writew word => ' ' :: Nat.toDigits 10 word.toNat

/-- "its mnemonic followed by its operands" (R60). -/
def writeLine (i : Instr) : List Char := i.mnemonic.toList ++ operandText i

end Sys2Proof.Machine
end

