-- ==== Sys2Proof/WellFormed.lean ====
section
/-! DEFINITION. The one precondition of a command: its index is below the data width of the instance (20_memory R38,
70_reset_and_hazards R159, 60_exceptions R129). The types of the operands hold what the fields admit (30_encoding
R51), so nothing else can be wrong with a command. An ill-formed command still has the effect R38 gives it. -/

namespace Sys2Proof

/-- "`0 <= idx < DW`" (R38), for the commands that use an index. -/
def Instr.wellFormed (dataWidth : Nat) (i : Instr) : Bool :=
  match i.index? with
  | some idx => decide (idx.toNat < dataWidth)
  | none => true

end Sys2Proof
end

