-- ==== Sys2Proof/Safety.lean ====
section
/-! DEFINITION. The terms claims use: the sequence a commit puts on the lines (43_commit_ops R105, R110), what a
listener on the lines reads off it, the placement of bits on the chain (60_exceptions R136), the invariant of the
machine, and which commands are accepted and which keep the host's duty (R129, 70_reset_and_hazards R166). -/

namespace Sys2Proof.Machine

/-! ### What a commit puts on the lines -/

/-- The bit sent at the `t`-th rising clock edge of a commit: `d(t) = S[8*(t div 8) + 7 - (t mod 8)]` (R110, R35). -/
def sentBit (w : Word) (t : Nat) : Bool := w.getLsbD (8 * (t / 8) + 7 - t % 8)

/-- The events of a clock pulse (R101). -/
def clockPulse : List LineEvent := [⟨.clock, true⟩, ⟨.clock, false⟩]

/-- The events of a latch pulse (R102). -/
def latchPulse : List LineEvent := [⟨.latch, true⟩, ⟨.latch, false⟩]

/-- "for `i = 0, 1, ..., CHIPS-1` in that order, for `k = 7, 6, ..., 0` in that order: `(DATA, S[8*i+k]) (CLOCK,1)
(CLOCK,0)`; then `(LATCH,1) (LATCH,0)`" (R105). -/
def commitEvents (chips : Nat) (w : Word) : List LineEvent :=
  (List.range chips).flatMap (fun i =>
    [7, 6, 5, 4, 3, 2, 1, 0].flatMap (fun k => ⟨.data, w.getLsbD (8 * i + k)⟩ :: clockPulse)) ++ latchPulse

/-- Drive a list of events, first to last. -/
def replay (events : List LineEvent) (s : State) : State :=
  events.foldl (fun t e => drive e.line e.level t) s

/-- The line levels after a list of events (R16). -/
def levelsAfter (events : List LineEvent) (l : LineBits) : LineBits :=
  events.foldl (fun m e => m.put e.line e.level) l

/-- What a listener writes down: the level of `DATA` at every rising edge of `CLOCK`, a rising edge being an event
`(CLOCK,1)` while the clock is low (00_scope glossary, R110). -/
def sampledBits : LineBits → List LineEvent → List Bool
  | _, [] => []
  | l, e :: rest =>
    if e.line = .clock ∧ l.clock = false ∧ e.level = true then
      l.data :: sampledBits (l.put e.line e.level) rest
    else sampledBits (l.put e.line e.level) rest

/-- How many rising edges a line has in a list of events. -/
def risingEdges (line : Line) : LineBits → List LineEvent → Nat
  | _, [] => 0
  | l, e :: rest =>
    (if e.line = line ∧ l.get line = false ∧ e.level = true then 1 else 0) +
      risingEdges line (l.put e.line e.level) rest

/-! ### Sequences of commands -/

/-- Commands one after another, each to completion (R42). -/
def runCommands : List Instr → State → Host.Outcome State Fault Refusal
  | [], s => .next s
  | i :: rest, s =>
    match exec i s with
    | .next t => runCommands rest t
    | .fault f => .fault f
    | .refused r => .refused r

/-! ### Relations between states -/

/-- Nothing but the state word and the response may differ: the lines, the trace, the chain, the port's queue and the
constants are the same. -/
structure SameOutside (s t : State) : Prop where
  params : t.params = s.params
  lines : t.lines = s.lines
  oe : t.oe = s.oe
  trace : t.trace = s.trace
  sr : t.sr = s.sr
  out : t.out = s.out
  pending : t.pending = s.pending

/-- Nothing but the lines, the trace, the chain and the response may differ: what a commit leaves alone. -/
structure SameInside (s t : State) : Prop where
  params : t.params = s.params
  word : t.word = s.word
  oe : t.oe = s.oe
  pending : t.pending = s.pending

/-- The two states are of instances with the same number of chips, perhaps under different storage policies, and
differ at most there, in storage-only bits and in the response (10_state R13, 00_scope R5). -/
structure SameButStorage (s t : State) : Prop where
  chips : t.params.chips = s.params.chips
  nreg : t.params.nreg = s.params.nreg
  pins : t.params.dataPin = s.params.dataPin ∧ t.params.clockPin = s.params.clockPin ∧
    t.params.latchPin = s.params.latchPin
  addressable : ∀ i, i < s.params.dataWidth → t.word.getLsbD i = s.word.getLsbD i
  lines : t.lines = s.lines
  oe : t.oe = s.oe
  trace : t.trace = s.trace
  sr : t.sr = s.sr
  out : t.out = s.out
  pending : t.pending = s.pending

/-! ### The invariant -/

/-- What holds at reset and after every step, whatever the host presents. -/
structure State.Inv (s : State) : Prop where
  /-- No bit of the word at or above `SW` is set (R30, R32); that the word has 64 bits is the model's
(notes/assumptions/14.md). -/
  word : Memory.wf s
  /-- The chain has `8*NREG` stages and as many outputs (R19). -/
  stages : s.sr.length = 8 * s.params.nreg
  outputs : s.out.length = 8 * s.params.nreg
  /-- The lines are outputs from reset on (R18). -/
  enabled : s.oe = ⟨true, true, true⟩
  /-- Each line has the level last driven onto it, low before that (R16). -/
  levels : s.lines = levelsAfter s.trace ⟨false, false, false⟩
  /-- Between commands the clock and the latch rest low (R101, R102, R111). -/
  clockLow : s.lines.clock = false
  latchLow : s.lines.latch = false
  /-- The trace is made of whole commits (R105, R109, R164). -/
  wholeCommits : s.trace.length % (24 * s.params.chips.toNat + 2) = 0
  /-- Once a commit has happened, the outputs are the stages (10_state R22). -/
  latched : s.trace ≠ [] → s.out = s.sr
  /-- A commit has its response (R56, R63). That the response is held from then on, also while the block is idle, is
the model's (DESIGN CHOICE, notes/assumptions/4.md). -/
  answered : s.trace ≠ [] → s.rspValid = true

/-! ### Accepted commands and the host's duty -/

/-- The opcode is one of the thirteen (R52, R57). -/
def acceptedWord (cmd : CommandWord) : Bool := decide ((opField cmd).toNat < 0x0D)

/-- The host's duty on what it presents: known opcodes and indices below `DW` (R129, R159, R166). -/
def State.hostDuty (s : State) : Bool :=
  s.pending.all (fun cmd =>
    match decode cmd with
    | .ok i => i.wellFormed s.params.dataWidth
    | .error _ => false)

/-- The chain is as long as `CHIPS` says and its two arrays have that many bits (R136, R158, R166). -/
abbrev State.chainFits (s : State) : Prop :=
  s.params.nreg = s.params.chips.toNat ∧ s.sr.length = 8 * s.params.nreg ∧ s.out.length = 8 * s.params.nreg

end Sys2Proof.Machine
end

