-- ==== Sys2Proof/Certificates/Slice0/Obligations.lean ====
section
/-! DEFINITION. What is claimed of the machine, rule by rule. Each claim holds for every instance (every `CHIPS`,
storage policy, chain length and pin binding), since the parameters are part of the state. -/

open Sys2Proof Sys2Proof.Machine

/-! ### The command word (30_encoding) -/

/-- R51 to R55: encoding any command and decoding the word gives the command back, with every operand. -/
def Obligations.EncodedCommandDecodesBack : Prop :=
  ∀ i : Instr, decode (encode i) = .ok i

/-- R52: "a command word `c` selects the row when `c & mask = match`", for the thirteen rows of
spec/opcode_table.json, whose mask is `0xFF000000000000000000` throughout. -/
def Obligations.TableRowSelectsItsCommand : Prop :=
  ∀ w : CommandWord, ∀ row ∈ [(0x00000000000000000000#80, "DATAWIDTH"), (0x01000000000000000000#80, "GET"),
      (0x02000000000000000000#80, "SET"), (0x03000000000000000000#80, "SETHIGH"),
      (0x04000000000000000000#80, "SETLOW"), (0x05000000000000000000#80, "INVERTBIT"),
      (0x06000000000000000000#80, "SETALLHIGH"), (0x07000000000000000000#80, "SETALLLOW"),
      (0x08000000000000000000#80, "INVERTALL"), (0x09000000000000000000#80, "SETSTATE"),
      (0x0A000000000000000000#80, "GETSTATE"), (0x0B000000000000000000#80, "WRITE"),
      (0x0C000000000000000000#80, "WRITEW")],
    w &&& 0xFF000000000000000000#80 = row.1 ↔ ∃ i, decode w = .ok i ∧ i.mnemonic = row.2

/-- R57, R58: the decoder is total; a word is one of the thirteen commands or reserved, by its opcode alone. -/
def Obligations.EveryWordIsACommandOrReserved : Prop :=
  ∀ w : CommandWord,
    ((w.toNat / 2 ^ 72 < 0x0D ∧ ∃ i, decode w = .ok i ∧ i.opcode.toNat = w.toNat / 2 ^ 72) ∨
      (0x0D ≤ w.toNat / 2 ^ 72 ∧ decode w = .error (.reserved (BitVec.ofNat 8 (w.toNat / 2 ^ 72)))))

/-- R55: a field a command does not use may hold anything, and the assembler writes zeros there. -/
def Obligations.UnusedFieldsAreIgnored : Prop :=
  (∀ (idx : Index) (data : Word),
    decode (commandWord 0x00 idx data) = .ok .datawidth ∧
    decode (commandWord 0x01 idx data) = .ok (.get idx) ∧
    decode (commandWord 0x02 idx data) = .ok (.set idx data) ∧
    decode (commandWord 0x03 idx data) = .ok (.sethigh idx) ∧
    decode (commandWord 0x04 idx data) = .ok (.setlow idx) ∧
    decode (commandWord 0x05 idx data) = .ok (.invertbit idx) ∧
    decode (commandWord 0x06 idx data) = .ok .setallhigh ∧
    decode (commandWord 0x07 idx data) = .ok .setalllow ∧
    decode (commandWord 0x08 idx data) = .ok .invertall ∧
    decode (commandWord 0x09 idx data) = .ok (.setstate data) ∧
    decode (commandWord 0x0A idx data) = .ok .getstate ∧
    decode (commandWord 0x0B idx data) = .ok .write ∧
    decode (commandWord 0x0C idx data) = .ok (.writew data)) ∧
  (∀ i ∈ [Instr.datawidth, .setallhigh, .setalllow, .invertall, .getstate, .write],
    idxField (encode i) = 0 ∧ dataField (encode i) = 0) ∧
  (∀ idx : Index, ∀ i ∈ [Instr.get idx, .sethigh idx, .setlow idx, .invertbit idx],
    dataField (encode i) = 0) ∧
  (∀ data : Word, ∀ i ∈ [Instr.setstate data, .writew data], idxField (encode i) = 0)

/-- Words written out by hand in 95_test_vectors section 2.8, one of each family and two with junk in unused fields. -/
def Obligations.ListedWordsDecode : Prop :=
  decode 0x00000000000000000000#80 = .ok .datawidth ∧
  decode 0x01050000000000000000#80 = .ok (.get 5) ∧
  decode 0x02050000000000000001#80 = .ok (.set 5 1) ∧
  decode 0x0317FFFFFFFFFFFFFFFF#80 = .ok (.sethigh 23) ∧
  decode 0x043F0000000000000000#80 = .ok (.setlow 63) ∧
  decode 0x05080000000000000000#80 = .ok (.invertbit 8) ∧
  decode 0x09000000000000001234#80 = .ok (.setstate 0x1234) ∧
  decode 0x0A000000000000000000#80 = .ok .getstate ∧
  decode 0x0BAA1234567812345678#80 = .ok .write ∧
  decode 0x0C0000000000DEADBEEF#80 = .ok (.writew 0xDEADBEEF) ∧
  decode 0x0D000000000000000000#80 = .error (.reserved 0x0D)

/-! ### The step -/

/-- R10, R50: a step takes the presented word whole, and runs exactly the command it decodes to; around it the step
only takes the word off the host's list (the list is the model's form of the host, notes/assumptions/1.md; the pins are
distinct in every instance of the spec, notes/assumptions/13.md). -/
def Obligations.StepRunsTheDecodedCommand : Prop :=
  ∀ (s : State) (cmd : CommandWord) (rest : List CommandWord) (i : Instr),
    s.params.pinsDistinct = true → s.pending = cmd :: rest → decode cmd = .ok i →
    step s = exec i { s with pending := rest }

/-- R142: "between commands it is idle with its state held" (a step with no command is the model's, DEDUCED,
notes/assumptions/12.md; that the response is held too is its choice, notes/assumptions/4.md). -/
def Obligations.StepWithoutCommandHoldsTheState : Prop :=
  ∀ s : State, s.params.pinsDistinct = true → s.pending = [] → step s = .next s

/-- R57, U12: the model refuses a command with a reserved opcode, by that name (the model follows the rule's advice to
a model; notes/assumptions/5.md). -/
def Obligations.ReservedWordIsRefused : Prop :=
  ∀ (s : State) (cmd : CommandWord) (rest : List CommandWord),
    s.params.pinsDistinct = true → s.pending = cmd :: rest → 0x0D ≤ (opField cmd).toNat →
    step s = .refused (.reservedOpcode (opField cmd))

/-- R5, D24: an instance whose pins are not pairwise distinct is none, and the model refuses it
(notes/assumptions/13.md). -/
def Obligations.SharedPinsAreRefused : Prop :=
  ∀ s : State,
    ¬(s.params.dataPin ≠ s.params.clockPin ∧ s.params.dataPin ≠ s.params.latchPin ∧
      s.params.clockPin ≠ s.params.latchPin) → step s = .refused .sharedPins

/-- A command the host presents, encoded, is the next one executed, on the state as it was (the host's move is
the model's, notes/assumptions/1.md). -/
def Obligations.PresentedCommandRunsNext : Prop :=
  ∀ (s : State) (i : Instr), s.params.pinsDistinct = true →
    step (s.withFetchWord 80 (encode i).toNat) = exec i s

/-! ### The query commands (40_query_ops) -/

/-- R70: DATAWIDTH answers `CHIPS * 8` and changes nothing else; its answer depends on `CHIPS` alone. -/
def Obligations.DatawidthAnswersTheDataWidth : Prop :=
  encode .datawidth = 0x00000000000000000000#80 ∧
  (∀ (idx : Index) (data : Word), decode (commandWord 0x00 idx data) = .ok .datawidth) ∧
  (∀ s : State, ∃ t, exec .datawidth s = .next t ∧ t.rspValid = true ∧
    t.rsp.toNat = s.params.chips.toNat * 8 ∧ t.rsp.toNat ∈ [8, 16, 24, 32, 40, 48, 56, 64] ∧
    (s.params.chips = .three → t.rsp = 24) ∧ t.word = s.word ∧ SameOutside s t)

/-- R71: GET answers the bit of the state word, also a storage-only one, and 0 where the storage has no such bit; it
changes nothing else. -/
def Obligations.GetAnswersTheBit : Prop :=
  (∀ idx : Index, encode (.get idx) = commandWord 0x01 idx 0) ∧
  (∀ (idx : Index) (data : Word), decode (commandWord 0x01 idx data) = .ok (.get idx)) ∧
  (∀ (idx : Index) (s : State), ∃ t, exec (.get idx) s = .next t ∧ t.rspValid = true ∧
    (idx.toNat < s.params.storageWidth → t.rsp.getLsbD 0 = s.word.getLsbD idx.toNat) ∧
    (s.params.storageWidth ≤ idx.toNat → t.rsp = 0) ∧
    (∀ j, 1 ≤ j → t.rsp.getLsbD j = false) ∧ t.word = s.word ∧ SameOutside s t)

/-- R72: GETSTATE answers all `SW` bits of the state word, zero-extended, and changes nothing else; after SETSTATE it
answers the word modulo `2^SW`, and the word itself if it fits in `DW` bits. -/
def Obligations.GetstateAnswersTheWholeWord : Prop :=
  encode .getstate = 0x0A000000000000000000#80 ∧
  (∀ (idx : Index) (data : Word), decode (commandWord 0x0A idx data) = .ok .getstate) ∧
  (∀ s : State, ∃ t, exec .getstate s = .next t ∧ t.rspValid = true ∧
    (∀ j, j < s.params.storageWidth → t.rsp.getLsbD j = s.word.getLsbD j) ∧
    (Memory.wf s → ∀ j, s.params.storageWidth ≤ j → t.rsp.getLsbD j = false) ∧
    t.word = s.word ∧ SameOutside s t) ∧
  (∀ (w : Word) (s : State), ∃ t, runCommands [.setstate w, .getstate] s = .next t ∧
    t.rsp.toNat = w.toNat % 2 ^ s.params.storageWidth ∧
    (w.toNat < 2 ^ s.params.dataWidth → t.rsp = w))

/-! ### The single-bit commands (41_bit_ops) -/

/-- R80: a single-bit command acts on bit `idx` where the storage has it, storage-only or not, and on no other bit;
where the storage has no such bit it changes nothing. -/
def Obligations.SingleBitCommandsTouchOneBit : Prop :=
  ∀ (idx : Index) (value : Word) (s : State),
    ∀ row ∈ [(Instr.set idx value, decide (value ≠ 0)), (.sethigh idx, true), (.setlow idx, false),
        (.invertbit idx, !s.word.getLsbD idx.toNat)],
      ∃ t, exec row.1 s = .next t ∧ t.rspValid = true ∧ t.rsp = 0 ∧
        (idx.toNat < s.params.storageWidth → t.word.getLsbD idx.toNat = row.2) ∧
        (∀ j, j ≠ idx.toNat → t.word.getLsbD j = s.word.getLsbD j) ∧
        (s.params.storageWidth ≤ idx.toNat → t.word = s.word) ∧ SameOutside s t

/-- R81: SET makes the bit high if `value` is nonzero over all 64 bits, else low, as SETHIGH or SETLOW would. -/
def Obligations.SetWritesTheNonzeroTest : Prop :=
  (∀ (idx : Index) (value : Word), encode (.set idx value) = commandWord 0x02 idx value ∧
    decode (commandWord 0x02 idx value) = .ok (.set idx value)) ∧
  (∀ (idx : Index) (value : Word) (s : State),
    (value ≠ 0 → exec (.set idx value) s = exec (.sethigh idx) s) ∧
    (value = 0 → exec (.set idx value) s = exec (.setlow idx) s) ∧
    ∃ t, exec (.set idx value) s = .next t ∧ t.rspValid = true ∧ t.rsp = 0 ∧
      (∀ j, t.word.getLsbD j =
        if j = idx.toNat ∧ j < s.params.storageWidth then decide (0 < value.toNat)
        else s.word.getLsbD j) ∧ SameOutside s t)

/-- R82: SETHIGH sets exactly one bit; done again it changes nothing; a GET of an index in range then answers 1. -/
def Obligations.SethighSetsOneBit : Prop :=
  (∀ (idx : Index), encode (.sethigh idx) = commandWord 0x03 idx 0 ∧
    ∀ data : Word, decode (commandWord 0x03 idx data) = .ok (.sethigh idx)) ∧
  (∀ (idx : Index) (s : State), ∃ t, exec (.sethigh idx) s = .next t ∧ t.rspValid = true ∧ t.rsp = 0 ∧
    (∀ j, t.word.getLsbD j =
      if j = idx.toNat ∧ j < s.params.storageWidth then true else s.word.getLsbD j) ∧
    SameOutside s t ∧ exec (.sethigh idx) t = .next t ∧
    (idx.toNat < s.params.dataWidth → ∃ u, exec (.get idx) t = .next u ∧ u.rsp = 1))

/-- R83: SETLOW clears exactly one bit; done again it changes nothing; a GET of any index then answers 0 there. -/
def Obligations.SetlowClearsOneBit : Prop :=
  (∀ (idx : Index), encode (.setlow idx) = commandWord 0x04 idx 0 ∧
    ∀ data : Word, decode (commandWord 0x04 idx data) = .ok (.setlow idx)) ∧
  (∀ (idx : Index) (s : State), ∃ t, exec (.setlow idx) s = .next t ∧ t.rspValid = true ∧ t.rsp = 0 ∧
    (∀ j, t.word.getLsbD j =
      if j = idx.toNat ∧ j < s.params.storageWidth then false else s.word.getLsbD j) ∧
    SameOutside s t ∧ exec (.setlow idx) t = .next t ∧
    ∃ u, exec (.get idx) t = .next u ∧ u.rsp = 0)

/-- R84: INVERTBIT flips exactly one bit, and twice it restores the word, for every index. -/
def Obligations.InvertbitFlipsOneBit : Prop :=
  (∀ (idx : Index), encode (.invertbit idx) = commandWord 0x05 idx 0 ∧
    ∀ data : Word, decode (commandWord 0x05 idx data) = .ok (.invertbit idx)) ∧
  (∀ (idx : Index) (s : State), ∃ t, exec (.invertbit idx) s = .next t ∧ t.rspValid = true ∧ t.rsp = 0 ∧
    (∀ j, t.word.getLsbD j =
      if j = idx.toNat ∧ j < s.params.storageWidth then !s.word.getLsbD j else s.word.getLsbD j) ∧
    SameOutside s t ∧ ∃ u, exec (.invertbit idx) t = .next u ∧ u.word = s.word)

/-! ### The whole-word commands (42_bulk_ops) -/

/-- R90: SETALLHIGH leaves `2^SW - 1`; a GET of an index in range then answers 1. -/
def Obligations.SetallhighSetsEveryBit : Prop :=
  encode .setallhigh = 0x06000000000000000000#80 ∧
  (∀ (idx : Index) (data : Word), decode (commandWord 0x06 idx data) = .ok .setallhigh) ∧
  (∀ s : State, ∃ t, exec .setallhigh s = .next t ∧ t.rspValid = true ∧ t.rsp = 0 ∧
    t.word.toNat = 2 ^ s.params.storageWidth - 1 ∧ SameOutside s t ∧
    ∀ idx : Index, idx.toNat < s.params.dataWidth → ∃ u, exec (.get idx) t = .next u ∧ u.rsp = 1)

/-- R91: SETALLLOW leaves 0, the word of the reset state; a GET of any index then answers 0. -/
def Obligations.SetalllowClearsEveryBit : Prop :=
  encode .setalllow = 0x07000000000000000000#80 ∧
  (∀ (idx : Index) (data : Word), decode (commandWord 0x07 idx data) = .ok .setalllow) ∧
  (∀ s : State, ∃ t, exec .setalllow s = .next t ∧ t.rspValid = true ∧ t.rsp = 0 ∧
    t.word.toNat = 0 ∧ t.word = (State.construct s.params s.sr s.out).word ∧ SameOutside s t ∧
    ∀ idx : Index, ∃ u, exec (.get idx) t = .next u ∧ u.rsp = 0)

/-- R92: INVERTALL complements all `SW` bits, `S <- (2^SW - 1) - S`, and twice it restores them. -/
def Obligations.InvertallComplementsTheWord : Prop :=
  encode .invertall = 0x08000000000000000000#80 ∧
  (∀ (idx : Index) (data : Word), decode (commandWord 0x08 idx data) = .ok .invertall) ∧
  (∀ s : State, ∃ t, exec .invertall s = .next t ∧ t.rspValid = true ∧ t.rsp = 0 ∧
    (∀ j, j < s.params.storageWidth → t.word.getLsbD j = !s.word.getLsbD j) ∧
    (∀ j, s.params.storageWidth ≤ j → t.word.getLsbD j = false) ∧ SameOutside s t ∧
    (Memory.wf s → t.word.toNat = 2 ^ s.params.storageWidth - 1 - s.word.toNat ∧
      ∃ u, exec .invertall t = .next u ∧ u.word = s.word))

/-- R94: SETSTATE replaces the state by the word modulo `2^SW`: narrowing, not saturation, to `SW` and not to `DW`;
what GETSTATE then answers is that. -/
def Obligations.SetstateStoresTheNarrowedWord : Prop :=
  (∀ w : Word, encode (.setstate w) = commandWord 0x09 0 w ∧
    ∀ idx : Index, decode (commandWord 0x09 idx w) = .ok (.setstate w)) ∧
  (∀ (w : Word) (s : State), ∃ t, exec (.setstate w) s = .next t ∧ t.rspValid = true ∧ t.rsp = 0 ∧
    t.word.toNat = w.toNat % 2 ^ s.params.storageWidth ∧
    (∀ j, j < s.params.storageWidth → t.word.getLsbD j = w.getLsbD j) ∧ SameOutside s t ∧
    ∃ u, exec .getstate t = .next u ∧ u.rsp.toNat = w.toNat % 2 ^ s.params.storageWidth)

/-! ### The commit commands (43_commit_ops) -/

/-- R106: WRITE puts the events of R105 on the lines, whatever was sent before, and changes nothing of the block but
`L` and `T`; a second WRITE sends the same events again and leaves a chain of `CHIPS` registers as it is. -/
def Obligations.WriteSendsTheStateWord : Prop :=
  encode .write = 0x0B000000000000000000#80 ∧
  (∀ (idx : Index) (data : Word), decode (commandWord 0x0B idx data) = .ok .write) ∧
  (∀ s : State, ∃ t, exec .write s = .next t ∧ t.rspValid = true ∧ t.rsp = 0 ∧ SameInside s t ∧
    t.trace = s.trace ++ commitEvents s.params.chips.toNat s.word ∧
    t.lines = ⟨s.word.getLsbD (8 * s.params.chips.toNat - 8), false, false⟩ ∧
    ∃ u, exec .write t = .next u ∧ u.trace = t.trace ++ commitEvents s.params.chips.toNat s.word ∧
      (s.chainFits → s.lines.clock = false → s.lines.latch = false → u.sr = t.sr ∧ u.out = t.out))

/-- R107: WRITEW is SETSTATE and then WRITE: the state is written first and for good, and the new state is sent. -/
def Obligations.WritewStoresThenSends : Prop :=
  (∀ w : Word, encode (.writew w) = commandWord 0x0C 0 w ∧
    ∀ idx : Index, decode (commandWord 0x0C idx w) = .ok (.writew w)) ∧
  (∀ (w : Word) (s : State), ∃ t, exec (.writew w) s = .next t ∧
    runCommands [.setstate w, .write] s = .next t ∧ t.rspValid = true ∧ t.rsp = 0 ∧
    t.word.toNat = w.toNat % 2 ^ s.params.storageWidth ∧
    t.params = s.params ∧ t.oe = s.oe ∧ t.pending = s.pending ∧
    t.trace = s.trace ++ commitEvents s.params.chips.toNat w ∧
    t.lines = ⟨w.getLsbD (8 * s.params.chips.toNat - 8), false, false⟩)

/-! ### Between the commands -/

/-- R61: the three equivalences the document states. -/
def Obligations.StatedEquivalencesHold : Prop :=
  ∀ (idx : Index) (value w : Word) (s : State),
    (value ≠ 0 → exec (.set idx value) s = exec (.sethigh idx) s) ∧
    exec (.set idx 0) s = exec (.setlow idx) s ∧
    exec (.writew w) s = runCommands [.setstate w, .write] s

/-- R40: reads change no state but the response and answer the same again; the six setting commands are idempotent;
the two inversions are involutions; WRITE always appends `24*CHIPS + 2` events. -/
def Obligations.IdempotentAndInvolutiveCommands : Prop :=
  ∀ s : State,
    (∀ (idx : Index), ∀ i ∈ [Instr.datawidth, .get idx, .getstate], ∃ t, exec i s = .next t ∧
      SameOutside s t ∧ t.word = s.word ∧ exec i t = .next t) ∧
    (∀ (idx : Index) (value : Word), ∀ i ∈ [Instr.sethigh idx, .setlow idx, .set idx value, .setallhigh,
        .setalllow, .setstate value],
      ∃ t, exec i s = .next t ∧ exec i t = .next t) ∧
    (∀ (idx : Index), ∃ u, runCommands [.invertbit idx, .invertbit idx] s = .next u ∧ u.word = s.word) ∧
    (Memory.wf s → ∃ u, runCommands [.invertall, .invertall] s = .next u ∧ u.word = s.word) ∧
    (∃ t, exec .write s = .next t ∧ t.word = s.word ∧
      t.trace.length = s.trace.length + (24 * s.params.chips.toNat + 2))

/-- R93: the identities among the whole-word commands, (a) to (e). -/
def Obligations.WholeWordIdentities : Prop :=
  ∀ s : State,
    runCommands [.setalllow, .invertall] s = exec .setallhigh s ∧
    runCommands [.setallhigh, .invertall] s = exec .setalllow s ∧
    exec .setallhigh s = exec (.setstate 0xFFFFFFFFFFFFFFFF) s ∧
    exec .setalllow s = exec (.setstate 0) s ∧
    (Memory.wf s → ∀ order : List Nat, order.Perm (List.range s.params.storageWidth) →
      runCommands (order.map fun n => .invertbit (BitVec.ofNat 8 n)) s = exec .invertall s)

/-- R36: the bit, byte and word views are views of one array of bits. -/
def Obligations.MixedWidthViewsAgree : Prop :=
  ∀ s : State,
    (∀ idx : Index, idx.toNat < s.params.storageWidth → ∃ t u, exec (.get idx) s = .next t ∧
      exec .getstate s = .next u ∧ u.rsp.getLsbD idx.toNat = t.rsp.getLsbD 0) ∧
    (∀ i k, k < 8 → (byteOf s.word i).getLsbD k = s.word.getLsbD (8 * i + k)) ∧
    (∀ i k, k < 8 → 8 * i + k < s.params.storageWidth →
      ∃ t, exec (.invertbit (BitVec.ofNat 8 (8 * i + k))) s = .next t ∧
        (byteOf t.word i).getLsbD k = !(byteOf s.word i).getLsbD k ∧
        (∀ k', k' < 8 → k' ≠ k → (byteOf t.word i).getLsbD k' = (byteOf s.word i).getLsbD k') ∧
        (∀ i', i' ≠ i → byteOf t.word i' = byteOf s.word i'))

/-- R38: with an out-of-range index a command leaves every addressable bit as it was, produces no line event and
completes; a read answers the storage-only bit, or 0 where there is no cell; a write acts on the storage-only bit as
on an addressable one, or on nothing where there is no cell. -/
def Obligations.OutOfRangeIndexDisturbsNothing : Prop :=
  ∀ (idx : Index) (value : Word) (s : State), s.params.dataWidth ≤ idx.toNat →
    (∀ i ∈ [Instr.get idx, .set idx value, .sethigh idx, .setlow idx, .invertbit idx],
      ∃ t, exec i s = .next t ∧ (∀ j, j < s.params.dataWidth → t.word.getLsbD j = s.word.getLsbD j) ∧
        (∀ j, j ≠ idx.toNat → t.word.getLsbD j = s.word.getLsbD j) ∧ SameOutside s t ∧
        (s.params.storageWidth ≤ idx.toNat → t.word = s.word ∧ t.rsp = 0)) ∧
    (idx.toNat < s.params.storageWidth →
      (∃ t, exec (.get idx) s = .next t ∧ t.rsp = if s.word.getLsbD idx.toNat then 1 else 0) ∧
      (∃ t, exec (.set idx value) s = .next t ∧ t.word.getLsbD idx.toNat = decide (value ≠ 0)) ∧
      (∃ t, exec (.sethigh idx) s = .next t ∧ t.word.getLsbD idx.toNat = true) ∧
      (∃ t, exec (.setlow idx) s = .next t ∧ t.word.getLsbD idx.toNat = false) ∧
      (∃ t, exec (.invertbit idx) s = .next t ∧ t.word.getLsbD idx.toNat = !s.word.getLsbD idx.toNat))

/-- R7, R48: the loads and stores of the block are MemRead and MemWrite at the absolute address `idx`, or over the
whole word. -/
def Obligations.CommandsAreMemoryAccesses : Prop :=
  ∀ (idx : Index) (w : Word) (s : State), Memory.wf s → idx.toNat < s.params.storageWidth →
    exec (.get idx) s = .next (s.respond ((memRead idx.toNat 1 s).setWidth 64)) ∧
    exec (.sethigh idx) s = .next ((memWrite idx.toNat 1 1 s).respond 0) ∧
    exec (.setlow idx) s = .next ((memWrite idx.toNat 1 0 s).respond 0) ∧
    exec (.invertbit idx) s =
      .next ((memWrite idx.toNat 1 (1 - (memRead idx.toNat 1 s).setWidth 64) s).respond 0) ∧
    exec .getstate s = .next (s.respond ((memRead 0 s.params.storageWidth s).setWidth 64)) ∧
    exec (.setstate w) s = .next ((memWrite 0 s.params.storageWidth w s).respond 0) ∧
    (∀ i, byteOf s.word i = memRead (8 * i) 8 s)

/-- R155, R23: a command that is not a commit completes, and changes the state word and the response and nothing
else: no line, no event, no stage, no output. -/
def Obligations.OnlyCommitsTouchLinesAndChain : Prop :=
  ∀ (i : Instr) (s : State), i ≠ .write → (∀ w, i ≠ .writew w) →
    ∃ t, exec i s = .next t ∧ t.rspValid = true ∧ SameOutside s t

/-- R120, R128: every command completes, in every state and with every operand, with a response, and leaves the
constants, the directions and the host's list alone. -/
def Obligations.EveryCommandCompletes : Prop :=
  ∀ (i : Instr) (s : State), ∃ t, exec i s = .next t ∧ t.rspValid = true ∧ t.params = s.params ∧
    t.oe = s.oe ∧ t.pending = s.pending

/-! ### The lines -/

/-- R100: `Drive` sets one line's level and appends the event, also when the level does not change, and changes no
other line and nothing in `S`; no command drives a single line. -/
def Obligations.DriveSetsOneLineAndRecordsTheEvent : Prop :=
  (∀ (line : Line) (level : Bool) (s : State),
    (drive line level s).lines.get line = level ∧
    (∀ other, other ≠ line → (drive line level s).lines.get other = s.lines.get other) ∧
    (drive line level s).trace = s.trace ++ [⟨line, level⟩] ∧
    (drive line level s).word = s.word) ∧
  (∀ (i : Instr) (s t : State), exec i s = .next t → t.trace = s.trace ∨
    (i = .write ∨ ∃ w, i = .writew w) ∧
      t.trace.length = s.trace.length + (24 * s.params.chips.toNat + 2))

/-- R101, R102: a pulse is high then low; from a low line it has exactly one rising edge, on which the chain shifts,
or loads its outputs; it ends low. -/
def Obligations.PulsesRiseOnceAndEndLow : Prop :=
  ∀ s : State,
    ((pulseClock s).trace = s.trace ++ [⟨.clock, true⟩, ⟨.clock, false⟩] ∧
      (pulseClock s).lines = ⟨s.lines.data, false, s.lines.latch⟩ ∧
      (s.lines.clock = false → risingEdges .clock s.lines [⟨.clock, true⟩, ⟨.clock, false⟩] = 1 ∧
        (pulseClock s).sr = (s.lines.data :: s.sr).take s.sr.length) ∧
      (pulseClock s).out = s.out) ∧
    ((pulseLatch s).trace = s.trace ++ [⟨.latch, true⟩, ⟨.latch, false⟩] ∧
      (pulseLatch s).lines = ⟨s.lines.data, s.lines.clock, false⟩ ∧
      (s.lines.latch = false → risingEdges .latch s.lines [⟨.latch, true⟩, ⟨.latch, false⟩] = 1 ∧
        (pulseLatch s).out = s.sr) ∧
      (pulseLatch s).sr = s.sr)

/-- R103: a byte is 24 events, bit 7 first, the data line driven for every bit before its clock pulse; the latch line
is not touched. -/
def Obligations.ByteIsSentMostSignificantBitFirst : Prop :=
  ∀ (b : Byte) (s : State),
    (shiftOutByteMsbFirst b s).trace = s.trace ++
      [⟨.data, b.getLsbD 7⟩, ⟨.clock, true⟩, ⟨.clock, false⟩, ⟨.data, b.getLsbD 6⟩, ⟨.clock, true⟩, ⟨.clock, false⟩,
       ⟨.data, b.getLsbD 5⟩, ⟨.clock, true⟩, ⟨.clock, false⟩, ⟨.data, b.getLsbD 4⟩, ⟨.clock, true⟩, ⟨.clock, false⟩,
       ⟨.data, b.getLsbD 3⟩, ⟨.clock, true⟩, ⟨.clock, false⟩, ⟨.data, b.getLsbD 2⟩, ⟨.clock, true⟩, ⟨.clock, false⟩,
       ⟨.data, b.getLsbD 1⟩, ⟨.clock, true⟩, ⟨.clock, false⟩, ⟨.data, b.getLsbD 0⟩, ⟨.clock, true⟩, ⟨.clock, false⟩] ∧
    (shiftOutByteMsbFirst b s).lines = ⟨b.getLsbD 0, false, s.lines.latch⟩ ∧
    (shiftOutByteMsbFirst b s).word = s.word

/-- R105: the events of a commit, byte by byte in ascending order and bit 7 first, then the latch pulse: `24*CHIPS + 2`
of them, with `8*CHIPS` rising clock edges and one rising latch edge from low lines; only bits below `8*CHIPS` of `S`
are read, and `S` is not written. -/
def Obligations.CommitPutsTheEventsInOrder : Prop :=
  (∀ s : State, (serialize s).word = s.word ∧
    (serialize s).trace = s.trace ++
      ((List.range s.params.chips.toNat).flatMap (fun i => [7, 6, 5, 4, 3, 2, 1, 0].flatMap (fun k =>
        [⟨.data, s.word.getLsbD (8 * i + k)⟩, ⟨.clock, true⟩, ⟨.clock, false⟩])) ++
      [⟨.latch, true⟩, ⟨.latch, false⟩])) ∧
  (∀ (c : ChipCount) (w : Word), (commitEvents c.toNat w).length = 24 * c.toNat + 2 ∧
    ∀ l : LineBits, l.clock = false → l.latch = false →
      risingEdges .clock l (commitEvents c.toNat w) = 8 * c.toNat ∧
      risingEdges .latch l (commitEvents c.toNat w) = 1)

/-- R110, R35: a listener that samples `DATA` at the rising clock edges of a commit reads `d(t)`, that is, the bytes of
the state in ascending order, each most significant bit first. -/
def Obligations.ListenerReadsTheBytesInOrder : Prop :=
  ∀ s : State, s.lines.clock = false → ∃ events,
    (serialize s).trace = s.trace ++ events ∧
    sampledBits s.lines events = (List.range s.params.dataWidth).map (fun t =>
      s.word.getLsbD (8 * (t / 8) + 7 - t % 8)) ∧
    ∀ i k, i < s.params.chips.toNat → k < 8 →
      (sampledBits s.lines events)[8 * i + k]? = some ((byteOf s.word i).getLsbD (7 - k))

/-- R111: after a commit `DATA` has bit 0 of the highest byte and the clock and the latch are low, and every other
command leaves the lines so. -/
def Obligations.LinesAfterACommit : Prop :=
  ∀ (i : Instr) (s t : State), exec i s = .next t →
    ((i = .write ∨ ∃ w, i = .writew w) →
      t.lines = ⟨t.word.getLsbD (8 * s.params.chips.toNat - 8), false, false⟩) ∧
    (¬(i = .write ∨ ∃ w, i = .writew w) → t.lines = s.lines)

/-- R108: the events of a commit are a function of `CHIPS` and of the bits below `DW`, whatever the storage-only bits
and the storage policy. -/
def Obligations.StorageOnlyBitsAreNeverSent : Prop :=
  ∀ s t : State, s.params.chips = t.params.chips →
    (∀ j, j < s.params.dataWidth → s.word.getLsbD j = t.word.getLsbD j) →
    ∃ events, (serialize s).trace = s.trace ++ events ∧ (serialize t).trace = t.trace ++ events

/-! ### The chain (60_exceptions section 4) -/

/-- R133: on a rising clock edge every stage takes the bit of the one before it, all at once, stage 0 takes the level of
`DATA`, and the outputs do not change. -/
def Obligations.RisingClockShiftsTheStages : Prop :=
  ∀ s : State, s.lines.clock = false →
    (drive .clock true s).sr.length = s.sr.length ∧
    (0 < s.sr.length → (drive .clock true s).sr[0]? = some s.lines.data) ∧
    (∀ j, j + 1 < s.sr.length → (drive .clock true s).sr[j + 1]? = s.sr[j]?) ∧
    (drive .clock true s).out = s.out

/-- R134: on a rising latch edge every output takes the bit of its stage, all at once, and the stages do not change. -/
def Obligations.RisingLatchLoadsTheOutputs : Prop :=
  ∀ s : State, s.lines.latch = false →
    (drive .latch true s).out = s.sr ∧ (drive .latch true s).sr = s.sr

/-- R132, R135: no other event changes anything in the chain: the stages change on a rising clock edge only and the
outputs on a rising latch edge only. -/
def Obligations.OtherEventsLeaveTheChainAlone : Prop :=
  ∀ (line : Line) (level : Bool) (s : State),
    (¬(line = .clock ∧ s.lines.clock = false ∧ level = true) → (drive line level s).sr = s.sr) ∧
    (¬(line = .latch ∧ s.lines.latch = false ∧ level = true) → (drive line level s).out = s.out)

/-- R22, R109: a commit is its events one after another, and after any number of them short of the latch pulse the
outputs are still as before the commit: no output shows a half-shifted state. A commit is one step of the model, and the
states between its events are those of `replay` (DEDUCED, notes/assumptions/11.md). -/
def Obligations.OutputsHoldUntilTheLatchPulse : Prop :=
  ∀ s : State,
    serialize s = replay (commitEvents s.params.chips.toNat s.word) s ∧
    ∀ k, k ≤ 24 * s.params.chips.toNat →
      (replay ((commitEvents s.params.chips.toNat s.word).take k) s).out = s.out

/-- R136, R112: on a chain of `CHIPS` registers, after WRITE or WRITEW, bit `8*i + k` of the state word is in stage and
on output `8*(CHIPS-1-i) + k`, whatever the chain held before. -/
def Obligations.CommitPlacesEveryBit : Prop :=
  ∀ (s : State) (w : Word), s.chainFits → s.lines.clock = false → s.lines.latch = false →
    ∀ i ∈ [Instr.write, .writew w], ∃ t, exec i s = .next t ∧
      t.sr.length = s.params.dataWidth ∧ t.out.length = s.params.dataWidth ∧
      ∀ j k, j < s.params.chips.toNat → k < 8 →
        t.sr[8 * (s.params.chips.toNat - 1 - j) + k]? = some (t.word.getLsbD (8 * j + k)) ∧
        t.out[8 * (s.params.chips.toNat - 1 - j) + k]? = some (t.word.getLsbD (8 * j + k))

/-- R137: on a chain of any length, after a WRITE of the state word or a WRITEW of a word, register `q` shows byte
`CHIPS-1-q` of it as far as the commit reaches, and beyond that what the stages `DW` nearer held before. -/
def Obligations.CommitOnAChainOfAnyLength : Prop :=
  ∀ (s : State) (w : Word), s.sr.length = 8 * s.params.nreg → s.lines.clock = false → s.lines.latch = false →
    ∀ row ∈ [(Instr.write, s.word), (.writew w, w)], ∃ t, exec row.1 s = .next t ∧
      t.out = t.sr ∧ t.sr.length = 8 * s.params.nreg ∧
      (∀ q k, k < 8 → 8 * q + k < s.params.dataWidth → 8 * q + k < 8 * s.params.nreg →
        t.sr[8 * q + k]? = some (row.2.getLsbD (8 * (s.params.chips.toNat - 1 - q) + k))) ∧
      (∀ j, s.params.dataWidth ≤ j → j < 8 * s.params.nreg →
        t.sr[j]? = s.sr[j - s.params.dataWidth]?)

/-- R154: a WRITE straight after reset makes every stage and every output low, whatever the chain held. -/
def Obligations.FirstCommitDefinesTheOutputs : Prop :=
  ∀ (p : Params) (sr out : List Bool), (State.construct p sr out).chainFits →
    ∃ t, exec .write (State.construct p sr out) = .next t ∧
      t.out = List.replicate (8 * p.nreg) false ∧ t.sr = List.replicate (8 * p.nreg) false

/-! ### The whole machine -/

/-- R5, R13: two instances with the same `CHIPS`, under whichever storage policies, that differ in storage-only bits
only, stay so under every command whose index is in range; the lines, the trace and the chain are the same, and so is
every response but GETSTATE's. -/
def Obligations.StoragePolicyShowsInGetstateOnly : Prop :=
  ∀ s t : State, SameButStorage s t → ∀ i : Instr, i.wellFormed s.params.dataWidth = true →
    ∃ s' t', exec i s = .next s' ∧ exec i t = .next t' ∧ SameButStorage s' t' ∧
      (i ≠ .getstate → t'.rsp = s'.rsp)

/-- R150, R24, R152: reset leaves the word 0, the lines outputs and low, the trace empty, and the chain as it was. -/
def Obligations.ResetLeavesTheStatedValues : Prop :=
  (∀ (p : Params) (sr out : List Bool), ∀ s, s = State.construct p sr out →
    s.word = 0 ∧ s.oe = ⟨true, true, true⟩ ∧ s.lines = ⟨false, false, false⟩ ∧ s.trace = [] ∧
    s.sr = sr ∧ s.out = out ∧ s.params = p) ∧
  State.reset.word = 0 ∧ State.reset.oe = ⟨true, true, true⟩ ∧
  State.reset.lines = ⟨false, false, false⟩ ∧ State.reset.trace = []

/-- The invariant holds at reset, whatever the chain holds; for `State.reset` this rests on the instance and the
chain contents the model chose there (notes/assumptions/2.md, 3.md). The clause on the canonical word is about the
model's 64 bits (notes/assumptions/14.md). -/
def Obligations.InvariantHoldsAtReset : Prop :=
  (∀ (p : Params) (sr out : List Bool), sr.length = 8 * p.nreg → out.length = 8 * p.nreg →
    (State.construct p sr out).Inv) ∧ State.reset.Inv

/-- Every step keeps the invariant: the word has no bit at or above `SW` (R32), the chain keeps its length (R19), the
lines stay outputs (R18) with the level last driven (R16), clock and latch rest low (R101, R102), the trace is whole
commits (R109, R164), and after a commit the outputs are the stages (R22) and the response is valid (R56, R63). Two
clauses rest on the model: that the response is held once given, also over a step with no command (DESIGN CHOICE,
notes/assumptions/4.md), and that the word stands in 64 bits with zeros above `SW` (DEDUCED, notes/assumptions/14.md). -/
def Obligations.StepKeepsTheInvariant : Prop :=
  ∀ s t : State, s.Inv → step s = .next t → t.Inv

/-- R20, R18, R126: no step changes a parameter of the instance or a direction of a line. -/
def Obligations.ConstantsNeverChange : Prop :=
  ∀ s t : State, step s = .next t → t.params = s.params ∧ t.oe = s.oe

/-- R42, R109, R142: a step takes exactly the next command of the host's list, and the events it adds, if any, are one
whole commit after all earlier ones; with no command it holds the state. The list is the model's form of the host
(DESIGN CHOICE, notes/assumptions/1.md), a step with no command its reading of R142 (DEDUCED, notes/assumptions/12.md),
and that such a step holds the response too its choice (DESIGN CHOICE, notes/assumptions/4.md). -/
def Obligations.CommandsAndEventsAreInOrder : Prop :=
  ∀ s t : State, step s = .next t →
    (s.pending = [] ∧ t = s) ∨
    (∃ cmd, s.pending = cmd :: t.pending ∧
      (t.trace = s.trace ∨ t.trace = s.trace ++ commitEvents s.params.chips.toNat t.word))

/-- R165: "A run cannot hang and cannot fault": from every state whose pins are distinct and whose list holds known
opcodes only, any number of steps completes, and each has taken one command while there was one. The list and the steps
after its end are the model's (notes/assumptions/1.md, 12.md), and the pins are distinct in every instance of the spec
(notes/assumptions/13.md). -/
def Obligations.RunsOfKnownCommandsComplete : Prop :=
  ∀ (n : Nat) (s : State), s.params.pinsDistinct = true → s.pending.all acceptedWord = true →
    ∃ t, Host.Core.run core n s = .next t ∧ t.pending = s.pending.drop n

/-! ### The textual form (30_encoding R60) -/

/-- R60: the line written for a command, its mnemonic followed by its operands, is read back as that command. Where
blanks stand, and that operands are written in decimal, is the model's choice (notes/assumptions/18.md). -/
def Obligations.WrittenLineIsReadBack : Prop :=
  ∀ i : Instr, readLine (writeLine i) = .command i

/-- R60, R150, R165: a listing of a header and one line for each of some commands loads as the constructed instance
with those commands, encoded, for the host to present. The list is the model's form of the host
(notes/assumptions/1.md), and how a header and a listing are read beyond R60 its choice (notes/assumptions/18.md, 20.md,
22.md, 23.md). -/
def Obligations.ListingLoadsAsARun : Prop :=
  ∀ (header : List Char) (p : Params) (is : List Instr) (sr out : List Bool), readLine header = .chain p →
    loadListing sr out (header :: is.map writeLine) =
      some { State.construct p sr out with pending := is.map encode }
end

