-- ==== Sys2Proof/Laws/State.lean ====
section
/-! SUPPORT. What each update of State leaves in each field. -/

namespace Sys2Proof.Machine

variable (s : State)

@[simp] theorem State.setWord_params (w : Word) : (s.setWord w).params = s.params := rfl
@[simp] theorem State.setWord_word (w : Word) : (s.setWord w).word = w := rfl
@[simp] theorem State.setWord_lines (w : Word) : (s.setWord w).lines = s.lines := rfl
@[simp] theorem State.setWord_oe (w : Word) : (s.setWord w).oe = s.oe := rfl
@[simp] theorem State.setWord_trace (w : Word) : (s.setWord w).trace = s.trace := rfl
@[simp] theorem State.setWord_sr (w : Word) : (s.setWord w).sr = s.sr := rfl
@[simp] theorem State.setWord_out (w : Word) : (s.setWord w).out = s.out := rfl
@[simp] theorem State.setWord_pending (w : Word) : (s.setWord w).pending = s.pending := rfl
@[simp] theorem State.setWord_rspValid (w : Word) : (s.setWord w).rspValid = s.rspValid := rfl
@[simp] theorem State.setWord_rsp (w : Word) : (s.setWord w).rsp = s.rsp := rfl

@[simp] theorem State.setLines_params (l : LineBits) : (s.setLines l).params = s.params := rfl
@[simp] theorem State.setLines_word (l : LineBits) : (s.setLines l).word = s.word := rfl
@[simp] theorem State.setLines_lines (l : LineBits) : (s.setLines l).lines = l := rfl
@[simp] theorem State.setLines_oe (l : LineBits) : (s.setLines l).oe = s.oe := rfl
@[simp] theorem State.setLines_trace (l : LineBits) : (s.setLines l).trace = s.trace := rfl
@[simp] theorem State.setLines_sr (l : LineBits) : (s.setLines l).sr = s.sr := rfl
@[simp] theorem State.setLines_out (l : LineBits) : (s.setLines l).out = s.out := rfl
@[simp] theorem State.setLines_pending (l : LineBits) : (s.setLines l).pending = s.pending := rfl
@[simp] theorem State.setLines_rspValid (l : LineBits) : (s.setLines l).rspValid = s.rspValid := rfl
@[simp] theorem State.setLines_rsp (l : LineBits) : (s.setLines l).rsp = s.rsp := rfl

@[simp] theorem State.record_params (e : LineEvent) : (s.record e).params = s.params := rfl
@[simp] theorem State.record_word (e : LineEvent) : (s.record e).word = s.word := rfl
@[simp] theorem State.record_lines (e : LineEvent) : (s.record e).lines = s.lines := rfl
@[simp] theorem State.record_oe (e : LineEvent) : (s.record e).oe = s.oe := rfl
@[simp] theorem State.record_trace (e : LineEvent) : (s.record e).trace = s.trace ++ [e] := rfl
@[simp] theorem State.record_sr (e : LineEvent) : (s.record e).sr = s.sr := rfl
@[simp] theorem State.record_out (e : LineEvent) : (s.record e).out = s.out := rfl
@[simp] theorem State.record_pending (e : LineEvent) : (s.record e).pending = s.pending := rfl
@[simp] theorem State.record_rspValid (e : LineEvent) : (s.record e).rspValid = s.rspValid := rfl
@[simp] theorem State.record_rsp (e : LineEvent) : (s.record e).rsp = s.rsp := rfl

@[simp] theorem State.setSr_params (b : List Bool) : (s.setSr b).params = s.params := rfl
@[simp] theorem State.setSr_word (b : List Bool) : (s.setSr b).word = s.word := rfl
@[simp] theorem State.setSr_lines (b : List Bool) : (s.setSr b).lines = s.lines := rfl
@[simp] theorem State.setSr_oe (b : List Bool) : (s.setSr b).oe = s.oe := rfl
@[simp] theorem State.setSr_trace (b : List Bool) : (s.setSr b).trace = s.trace := rfl
@[simp] theorem State.setSr_sr (b : List Bool) : (s.setSr b).sr = b := rfl
@[simp] theorem State.setSr_out (b : List Bool) : (s.setSr b).out = s.out := rfl
@[simp] theorem State.setSr_pending (b : List Bool) : (s.setSr b).pending = s.pending := rfl
@[simp] theorem State.setSr_rspValid (b : List Bool) : (s.setSr b).rspValid = s.rspValid := rfl
@[simp] theorem State.setSr_rsp (b : List Bool) : (s.setSr b).rsp = s.rsp := rfl

@[simp] theorem State.setOut_params (b : List Bool) : (s.setOut b).params = s.params := rfl
@[simp] theorem State.setOut_word (b : List Bool) : (s.setOut b).word = s.word := rfl
@[simp] theorem State.setOut_lines (b : List Bool) : (s.setOut b).lines = s.lines := rfl
@[simp] theorem State.setOut_oe (b : List Bool) : (s.setOut b).oe = s.oe := rfl
@[simp] theorem State.setOut_trace (b : List Bool) : (s.setOut b).trace = s.trace := rfl
@[simp] theorem State.setOut_sr (b : List Bool) : (s.setOut b).sr = s.sr := rfl
@[simp] theorem State.setOut_out (b : List Bool) : (s.setOut b).out = b := rfl
@[simp] theorem State.setOut_pending (b : List Bool) : (s.setOut b).pending = s.pending := rfl
@[simp] theorem State.setOut_rspValid (b : List Bool) : (s.setOut b).rspValid = s.rspValid := rfl
@[simp] theorem State.setOut_rsp (b : List Bool) : (s.setOut b).rsp = s.rsp := rfl

@[simp] theorem State.setPending_params (c : List CommandWord) : (s.setPending c).params = s.params := rfl
@[simp] theorem State.setPending_word (c : List CommandWord) : (s.setPending c).word = s.word := rfl
@[simp] theorem State.setPending_lines (c : List CommandWord) : (s.setPending c).lines = s.lines := rfl
@[simp] theorem State.setPending_oe (c : List CommandWord) : (s.setPending c).oe = s.oe := rfl
@[simp] theorem State.setPending_trace (c : List CommandWord) : (s.setPending c).trace = s.trace := rfl
@[simp] theorem State.setPending_sr (c : List CommandWord) : (s.setPending c).sr = s.sr := rfl
@[simp] theorem State.setPending_out (c : List CommandWord) : (s.setPending c).out = s.out := rfl
@[simp] theorem State.setPending_pending (c : List CommandWord) : (s.setPending c).pending = c := rfl
@[simp] theorem State.setPending_rspValid (c : List CommandWord) : (s.setPending c).rspValid = s.rspValid := rfl
@[simp] theorem State.setPending_rsp (c : List CommandWord) : (s.setPending c).rsp = s.rsp := rfl

@[simp] theorem State.respond_params (v : Word) : (s.respond v).params = s.params := rfl
@[simp] theorem State.respond_word (v : Word) : (s.respond v).word = s.word := rfl
@[simp] theorem State.respond_lines (v : Word) : (s.respond v).lines = s.lines := rfl
@[simp] theorem State.respond_oe (v : Word) : (s.respond v).oe = s.oe := rfl
@[simp] theorem State.respond_trace (v : Word) : (s.respond v).trace = s.trace := rfl
@[simp] theorem State.respond_sr (v : Word) : (s.respond v).sr = s.sr := rfl
@[simp] theorem State.respond_out (v : Word) : (s.respond v).out = s.out := rfl
@[simp] theorem State.respond_pending (v : Word) : (s.respond v).pending = s.pending := rfl
@[simp] theorem State.respond_rspValid (v : Word) : (s.respond v).rspValid = true := rfl
@[simp] theorem State.respond_rsp (v : Word) : (s.respond v).rsp = v := rfl

@[simp] theorem State.construct_params (p : Params) (sr out : List Bool) : (State.construct p sr out).params = p := rfl
@[simp] theorem State.construct_word (p : Params) (sr out : List Bool) : (State.construct p sr out).word = 0 := rfl
@[simp] theorem State.construct_lines (p : Params) (sr out : List Bool) : (State.construct p sr out).lines = ⟨false, false, false⟩ := rfl
@[simp] theorem State.construct_oe (p : Params) (sr out : List Bool) : (State.construct p sr out).oe = ⟨true, true, true⟩ := rfl
@[simp] theorem State.construct_trace (p : Params) (sr out : List Bool) : (State.construct p sr out).trace = [] := rfl
@[simp] theorem State.construct_sr (p : Params) (sr out : List Bool) : (State.construct p sr out).sr = sr := rfl
@[simp] theorem State.construct_out (p : Params) (sr out : List Bool) : (State.construct p sr out).out = out := rfl
@[simp] theorem State.construct_pending (p : Params) (sr out : List Bool) : (State.construct p sr out).pending = [] := rfl
@[simp] theorem State.construct_rspValid (p : Params) (sr out : List Bool) : (State.construct p sr out).rspValid = false := rfl
@[simp] theorem State.construct_rsp (p : Params) (sr out : List Bool) : (State.construct p sr out).rsp = 0 := rfl

end Sys2Proof.Machine
end

