-- ==== Sys2Proof/Laws/Word.lean ====
section
/-! SUPPORT. The sizing of the state word, the bits of every operation on it, and that each keeps its canonical form. -/

namespace Sys2Proof

theorem ChipCount.toNat_bounds (c : ChipCount) : 1 ≤ c.toNat ∧ c.toNat ≤ 8 := by
  cases c <;> decide

theorem Params.dataWidth_le_storageWidth (p : Params) : p.dataWidth ≤ p.storageWidth := by
  obtain ⟨c, q, _⟩ := p
  cases c <;> cases q <;> simp [Params.dataWidth, Params.storageWidth, ChipCount.toNat]

theorem Params.storageWidth_le (p : Params) : p.storageWidth ≤ 64 := by
  obtain ⟨c, q, _⟩ := p
  cases c <;> cases q <;> simp [Params.storageWidth]

theorem Params.dataWidth_eq (p : Params) : p.dataWidth = p.chips.toNat * 8 := rfl

@[simp] theorem Params.getLsbD_allOnes (p : Params) (i : Nat) :
    p.allOnes.getLsbD i = decide (i < p.storageWidth) := by
  have h := p.storageWidth_le
  simp only [Params.allOnes, BitVec.getLsbD_ushiftRight, BitVec.getLsbD_allOnes, decide_eq_decide]
  omega

@[simp] theorem Params.getLsbD_truncate (p : Params) (w : Word) (i : Nat) :
    (p.truncate w).getLsbD i = (w.getLsbD i && decide (i < p.storageWidth)) := by
  simp [Params.truncate]

@[simp] theorem Params.truncate_truncate (p : Params) (w : Word) :
    p.truncate (p.truncate w) = p.truncate w := by
  simp [Params.truncate, BitVec.and_assoc]

@[simp] theorem Params.truncate_zero (p : Params) : p.truncate 0#64 = 0#64 := by simp [Params.truncate]

@[simp] theorem Params.truncate_allOnes (p : Params) : p.truncate p.allOnes = p.allOnes := by
  simp [Params.truncate]

/-- Two words with the same bits below `SW` are the same at width `SW`. -/
theorem Params.truncate_congr (p : Params) {v w : Word}
    (h : ∀ i, i < p.storageWidth → v.getLsbD i = w.getLsbD i) : p.truncate v = p.truncate w := by
  apply BitVec.eq_of_getLsbD_eq
  intro i _
  by_cases hi : i < p.storageWidth
  · simp [hi, h i hi]
  · simp [hi]

/-- `trunc_SW` as arithmetic (R6). -/
theorem Params.toNat_truncate (p : Params) (w : Word) :
    (p.truncate w).toNat = w.toNat % 2 ^ p.storageWidth := by
  obtain ⟨c, q, _⟩ := p
  cases c <;> cases q <;>
    simp [Params.truncate, Params.allOnes, Params.storageWidth] <;>
    first
    | exact Nat.and_two_pow_sub_one_eq_mod _ 8
    | exact Nat.and_two_pow_sub_one_eq_mod _ 16
    | exact Nat.and_two_pow_sub_one_eq_mod _ 32
    | exact Nat.and_two_pow_sub_one_eq_mod _ 64

/-- All ones as a number (R47). -/
theorem Params.toNat_allOnes (p : Params) : p.allOnes.toNat = 2 ^ p.storageWidth - 1 := by
  obtain ⟨c, q, _⟩ := p
  cases c <;> cases q <;> simp [Params.allOnes, Params.storageWidth]

namespace Machine

/-- The canonical form, bit by bit. -/
theorem Memory.wf_iff {s : State} :
    Memory.wf s ↔ ∀ i, s.params.storageWidth ≤ i → s.word.getLsbD i = false := by
  constructor
  · intro h i hi
    rw [← h]
    simp; omega
  · intro h
    apply BitVec.eq_of_getLsbD_eq
    intro i _
    by_cases hi : i < s.params.storageWidth
    · simp [hi]
    · simp [hi, h i (by omega)]

@[simp] theorem getLsbD_bitMask (p : Params) (idx : Index) (i : Nat) :
    (bitMask p idx).getLsbD i = decide (i = idx.toNat ∧ i < p.storageWidth) := by
  have h := p.storageWidth_le
  unfold bitMask
  split
  · rw [BitVec.getLsbD_shiftLeft, BitVec.getLsbD_one, Bool.eq_iff_iff]
    simp
    omega
  · simp; omega

/-- `raiseBit` makes bit `idx` 1 where the storage has it, and touches no other (R80, R82). -/
theorem getLsbD_raiseBit (idx : Index) (s : State) (i : Nat) :
    (raiseBit idx s).word.getLsbD i =
      if i = idx.toNat ∧ i < s.params.storageWidth then true else s.word.getLsbD i := by
  simp only [raiseBit, State.setWord_word, BitVec.getLsbD_or, getLsbD_bitMask]
  split <;> rename_i h
  · rw [decide_eq_true h, Bool.or_true]
  · rw [decide_eq_false h, Bool.or_false]

/-- `clearBit` makes bit `idx` 0 where the storage has it, and touches no other (R80, R83). -/
theorem getLsbD_clearBit (idx : Index) (s : State) (i : Nat) :
    (clearBit idx s).word.getLsbD i =
      if i = idx.toNat ∧ i < s.params.storageWidth then false else s.word.getLsbD i := by
  by_cases h64 : i < 64
  · simp only [clearBit, State.setWord_word, BitVec.getLsbD_and, BitVec.getLsbD_not,
      getLsbD_bitMask, h64, decide_true, Bool.true_and]
    split <;> rename_i h
    · rw [decide_eq_true h, Bool.not_true, Bool.and_false]
    · rw [decide_eq_false h, Bool.not_false, Bool.and_true]
  · simp [BitVec.getLsbD_of_ge _ _ (Nat.le_of_not_lt h64)]

/-- `flipBit` flips bit `idx` where the storage has it, and touches no other (R80, R84). -/
theorem getLsbD_flipBit (idx : Index) (s : State) (i : Nat) :
    (flipBit idx s).word.getLsbD i =
      if i = idx.toNat ∧ i < s.params.storageWidth then !s.word.getLsbD i else s.word.getLsbD i := by
  simp only [flipBit, State.setWord_word, BitVec.getLsbD_xor, getLsbD_bitMask]
  split <;> rename_i h
  · rw [decide_eq_true h, Bool.xor_true]
  · rw [decide_eq_false h, Bool.xor_false]

/-- The word after `storeWord`, bit by bit. -/
theorem getLsbD_storeWord (v : Word) (s : State) (i : Nat) :
    (storeWord v s).word.getLsbD i = (v.getLsbD i && decide (i < s.params.storageWidth)) := by
  simp [storeWord]

/-- The word after `memWrite`, bit by bit. -/
theorem getLsbD_memWrite (addr n : Nat) (v : Word) (s : State) (i : Nat) (hn : n ≤ 64) :
    (memWrite addr n v s).word.getLsbD i =
      ((if addr ≤ i ∧ i < addr + n then v.getLsbD (i - addr) else s.word.getLsbD i) &&
        decide (i < s.params.storageWidth)) := by
  have h := s.params.storageWidth_le
  by_cases h64 : i < 64
  · simp only [memWrite, State.setWord_word, Params.getLsbD_truncate, BitVec.getLsbD_or,
      BitVec.getLsbD_and, BitVec.getLsbD_not, BitVec.getLsbD_shiftLeft, BitVec.getLsbD_setWidth,
      BitVec.getLsbD_allOnes, h64]
    by_cases ha : addr ≤ i
    · by_cases hb : i < addr + n
      · have h1 : ¬ i < addr := by omega
        have h2 : i - addr < n := by omega
        have h3 : i - addr < 64 := by omega
        simp [ha, hb, h1, h2, h3]
      · have h1 : ¬ i < addr := by omega
        have h2 : ¬ i - addr < n := by omega
        simp [ha, hb, h1, h2]
    · have h1 : i < addr := by omega
      simp [ha, h1]
  · simp [BitVec.getLsbD_of_ge _ _ (Nat.le_of_not_lt h64)]; omega

/-! ### Every operation on the word keeps the canonical form -/

theorem raiseBit_wf (idx : Index) {s : State} (h : Memory.wf s) : Memory.wf (raiseBit idx s) := by
  rw [Memory.wf_iff] at *
  intro i hi
  rw [getLsbD_raiseBit, if_neg fun hc => Nat.not_lt.mpr hi hc.2, h i hi]

theorem clearBit_wf (idx : Index) {s : State} (h : Memory.wf s) : Memory.wf (clearBit idx s) := by
  rw [Memory.wf_iff] at *
  intro i hi
  rw [getLsbD_clearBit, if_neg fun hc => Nat.not_lt.mpr hi hc.2, h i hi]

theorem flipBit_wf (idx : Index) {s : State} (h : Memory.wf s) : Memory.wf (flipBit idx s) := by
  rw [Memory.wf_iff] at *
  intro i hi
  rw [getLsbD_flipBit, if_neg fun hc => Nat.not_lt.mpr hi hc.2, h i hi]

theorem storeWord_wf (v : Word) (s : State) : Memory.wf (storeWord v s) := by
  simp [Memory.wf, storeWord]

theorem memWrite_wf (addr n : Nat) (v : Word) (s : State) : Memory.wf (memWrite addr n v s) := by
  simp [Memory.wf, memWrite]

theorem setAllOnes_wf (s : State) : Memory.wf (s.setWord s.params.allOnes) := by simp [Memory.wf]

theorem setZero_wf (s : State) : Memory.wf (s.setWord 0) := by simp [Memory.wf]

theorem construct_wf (p : Params) (sr out : List Bool) : Memory.wf (State.construct p sr out) := by
  simp [Memory.wf]

theorem reset_wf : Memory.wf State.reset := construct_wf _ _ _

end Machine

end Sys2Proof
end

