-- ==== Sys2Proof/Laws/Commit.lean ====
section
/-! SUPPORT. What driving a line does to the block and to the chain, for one event, for any list of events, and for a
commit. -/

namespace Sys2Proof.Machine

/-! ### One event -/

variable (line : Line) (level old : Bool) (e : LineEvent) (s : State)

@[simp] theorem LineBits.get_put_self (l : LineBits) : (l.put line level).get line = level := by
  cases line <;> rfl

theorem LineBits.get_put_ne (l : LineBits) {other : Line} (h : other ≠ line) :
    (l.put line level).get other = l.get other := by
  cases line <;> cases other <;> first | rfl | exact absurd rfl h

/-- The chain's reaction is a shift, a latch or nothing (R132). -/
theorem chainReact_cases :
    (e.line = .clock ∧ old = false ∧ e.level = true ∧ chainReact old e s = chainShift s) ∨
    (e.line = .latch ∧ old = false ∧ e.level = true ∧ chainReact old e s = chainLatch s) ∨
    (¬(e.line = .clock ∧ old = false ∧ e.level = true) ∧
      ¬(e.line = .latch ∧ old = false ∧ e.level = true) ∧ chainReact old e s = s) := by
  obtain ⟨l, v⟩ := e
  cases l <;> cases old <;> cases v <;> simp [chainReact]

/-- The chain reacts in its own two arrays only. -/
theorem chainReact_eq :
    chainReact old e s = { s with sr := (chainReact old e s).sr, out := (chainReact old e s).out } := by
  rcases chainReact_cases old e s with ⟨_, _, _, h⟩ | ⟨_, _, _, h⟩ | ⟨_, _, h⟩ <;> rw [h] <;> rfl

@[simp] theorem chainReact_params : (chainReact old e s).params = s.params := by rw [chainReact_eq]
@[simp] theorem chainReact_word : (chainReact old e s).word = s.word := by rw [chainReact_eq]
@[simp] theorem chainReact_lines : (chainReact old e s).lines = s.lines := by rw [chainReact_eq]
@[simp] theorem chainReact_oe : (chainReact old e s).oe = s.oe := by rw [chainReact_eq]
@[simp] theorem chainReact_trace : (chainReact old e s).trace = s.trace := by rw [chainReact_eq]
@[simp] theorem chainReact_pending : (chainReact old e s).pending = s.pending := by rw [chainReact_eq]
@[simp] theorem chainReact_rspValid : (chainReact old e s).rspValid = s.rspValid := by rw [chainReact_eq]
@[simp] theorem chainReact_rsp : (chainReact old e s).rsp = s.rsp := by rw [chainReact_eq]

@[simp] theorem drive_params : (drive line level s).params = s.params := by simp [drive, driveLine]
@[simp] theorem drive_word : (drive line level s).word = s.word := by simp [drive, driveLine]
@[simp] theorem drive_lines : (drive line level s).lines = s.lines.put line level := by
  simp [drive, driveLine]
@[simp] theorem drive_oe : (drive line level s).oe = s.oe := by simp [drive, driveLine]
@[simp] theorem drive_trace : (drive line level s).trace = s.trace ++ [⟨line, level⟩] := by
  simp [drive, driveLine]
@[simp] theorem drive_pending : (drive line level s).pending = s.pending := by simp [drive, driveLine]
@[simp] theorem drive_rspValid : (drive line level s).rspValid = s.rspValid := by
  simp [drive, driveLine]
@[simp] theorem drive_rsp : (drive line level s).rsp = s.rsp := by simp [drive, driveLine]

/-- The stages shift on a rising clock edge and on nothing else (R132, R133, R135). -/
theorem drive_sr :
    (drive line level s).sr =
      if line = .clock ∧ s.lines.clock = false ∧ level = true then shiftStages s.lines.data s.sr
      else s.sr := by
  cases line <;> cases level <;> cases h : s.lines.clock <;> cases h' : s.lines.latch <;>
    simp [drive, driveLine, chainReact, chainShift, chainLatch, LineBits.get, LineBits.put, h, h']

/-- The outputs load on a rising latch edge and on nothing else (R132, R134, R135). -/
theorem drive_out :
    (drive line level s).out =
      if line = .latch ∧ s.lines.latch = false ∧ level = true then s.sr else s.out := by
  cases line <;> cases level <;> cases h : s.lines.clock <;> cases h' : s.lines.latch <;>
    simp [drive, driveLine, chainReact, chainShift, chainLatch, LineBits.get, LineBits.put, h, h']

/-! ### A list of events -/

variable (es fs : List LineEvent)

@[simp] theorem replay_nil : replay [] s = s := rfl

@[simp] theorem replay_cons : replay (e :: es) s = replay es (drive e.line e.level s) := rfl

theorem replay_append : replay (es ++ fs) s = replay fs (replay es s) := by
  simp [replay, List.foldl_append]

@[simp] theorem replay_params : (replay es s).params = s.params := by
  induction es generalizing s with
  | nil => rfl
  | cons e es ih => simp [ih]

@[simp] theorem replay_word : (replay es s).word = s.word := by
  induction es generalizing s with
  | nil => rfl
  | cons e es ih => simp [ih]

@[simp] theorem replay_oe : (replay es s).oe = s.oe := by
  induction es generalizing s with
  | nil => rfl
  | cons e es ih => simp [ih]

@[simp] theorem replay_pending : (replay es s).pending = s.pending := by
  induction es generalizing s with
  | nil => rfl
  | cons e es ih => simp [ih]

@[simp] theorem replay_rspValid : (replay es s).rspValid = s.rspValid := by
  induction es generalizing s with
  | nil => rfl
  | cons e es ih => simp [ih]

@[simp] theorem replay_rsp : (replay es s).rsp = s.rsp := by
  induction es generalizing s with
  | nil => rfl
  | cons e es ih => simp [ih]

@[simp] theorem replay_trace : (replay es s).trace = s.trace ++ es := by
  induction es generalizing s with
  | nil => simp
  | cons e es ih => simp [ih]

@[simp] theorem replay_lines : (replay es s).lines = levelsAfter es s.lines := by
  induction es generalizing s with
  | nil => rfl
  | cons e es ih => simp [ih, levelsAfter]

theorem shiftStages_length (b : Bool) (sr : List Bool) : (shiftStages b sr).length = sr.length := by
  simp [shiftStages]

/-- The stages after a list of events: the bits sampled at its rising clock edges, the last one nearest, pushed in
front of the old stages, and as many kept as there are stages. -/
theorem replay_sr :
    (replay es s).sr = ((sampledBits s.lines es).reverse ++ s.sr).take s.sr.length := by
  induction es generalizing s with
  | nil => simp [sampledBits]
  | cons e es ih =>
    rw [replay_cons, ih, drive_sr, drive_lines, sampledBits]
    by_cases h : e.line = .clock ∧ s.lines.clock = false ∧ e.level = true
    · simp only [if_pos h, shiftStages_length, List.reverse_cons, List.append_assoc]
      simp only [shiftStages, List.take_append, List.take_take, List.singleton_append]
      congr 2
      omega
    · simp only [if_neg h]

theorem replay_sr_length : (replay es s).sr.length = s.sr.length := by
  simp [replay_sr]

/-- The outputs do not move while the latch line is not driven. -/
theorem replay_out (h : ∀ e ∈ es, e.line ≠ .latch) : (replay es s).out = s.out := by
  induction es generalizing s with
  | nil => rfl
  | cons e es ih =>
    have he : e.line ≠ .latch := h e (by simp)
    rw [replay_cons, ih _ (fun f hf => h f (by simp [hf])), drive_out]
    simp [he]

/-! ### A commit -/

/-- The events of one byte, most significant bit first (R103). -/
def byteEvents (w : Word) (i : Nat) : List LineEvent :=
  [7, 6, 5, 4, 3, 2, 1, 0].flatMap (fun k => ⟨.data, w.getLsbD (8 * i + k)⟩ :: clockPulse)

theorem byteOf_getLsbD (w : Word) (i k : Nat) (h : k < 8) :
    (byteOf w i).getLsbD k = w.getLsbD (8 * i + k) := by
  simp [byteOf, h]

theorem shiftOutByte_eq_replay (i : Nat) :
    shiftOutByteMsbFirst (byteOf s.word i) s = replay (byteEvents s.word i) s := by
  simp only [shiftOutByteMsbFirst, List.foldl_cons, List.foldl_nil,
    byteOf_getLsbD s.word i 7 (by decide), byteOf_getLsbD s.word i 6 (by decide),
    byteOf_getLsbD s.word i 5 (by decide), byteOf_getLsbD s.word i 4 (by decide),
    byteOf_getLsbD s.word i 3 (by decide), byteOf_getLsbD s.word i 2 (by decide),
    byteOf_getLsbD s.word i 1 (by decide), byteOf_getLsbD s.word i 0 (by decide)]
  rfl

theorem shiftOutBytes_eq_replay (is : List Nat) :
    shiftOutBytes is s = replay (is.flatMap (byteEvents s.word)) s := by
  induction is generalizing s with
  | nil => rfl
  | cons i is ih =>
    rw [shiftOutBytes, ih, shiftOutByte_eq_replay, List.flatMap_cons, replay_append, replay_word]

/-- A commit is the replay of the events R105 lists, in every state. -/
theorem serialize_eq_replay :
    serialize s = replay (commitEvents s.params.chips.toNat s.word) s := by
  rw [serialize, shiftOutBytes_eq_replay, commitEvents, replay_append]
  rfl

theorem levelsAfter_commitEvents (c : ChipCount) (w : Word) (l : LineBits) :
    levelsAfter (commitEvents c.toNat w) l = ⟨w.getLsbD (8 * c.toNat - 8), false, false⟩ := by
  cases c <;> rfl

theorem length_commitEvents (c : ChipCount) (w : Word) :
    (commitEvents c.toNat w).length = 24 * c.toNat + 2 := by
  cases c <;> rfl

/-- The bits a listener samples while whole bytes are sent from a low clock. -/
theorem sampledBits_bytes (is : List Nat) (w : Word) (l : LineBits) (h : l.clock = false) :
    sampledBits l (is.flatMap (byteEvents w) ++ latchPulse) =
      is.flatMap (fun i => [7, 6, 5, 4, 3, 2, 1, 0].map (fun k => w.getLsbD (8 * i + k))) := by
  obtain ⟨d, k, t⟩ := l
  cases h
  induction is generalizing d with
  | nil => rfl
  | cons i is ih =>
    have hi : sampledBits ⟨d, false, t⟩ (byteEvents w i ++ (is.flatMap (byteEvents w) ++ latchPulse)) =
        [7, 6, 5, 4, 3, 2, 1, 0].map (fun k => w.getLsbD (8 * i + k)) ++
          sampledBits ⟨w.getLsbD (8 * i + 0), false, t⟩ (is.flatMap (byteEvents w) ++ latchPulse) := by
      rfl
    rw [List.flatMap_cons, List.append_assoc, hi, ih, List.flatMap_cons]

/-- The bits a listener samples during a commit, from a low clock (R110). -/
theorem sampledBits_commitEvents (c : ChipCount) (w : Word) (l : LineBits) (h : l.clock = false) :
    sampledBits l (commitEvents c.toNat w) = (List.range (8 * c.toNat)).map (sentBit w) := by
  rw [commitEvents]
  exact (sampledBits_bytes _ w l h).trans (by cases c <;> rfl)

/-- The stages after a commit from a low clock. -/
theorem serialize_sr (h : s.lines.clock = false) :
    (serialize s).sr =
      (((List.range (8 * s.params.chips.toNat)).map (sentBit s.word)).reverse ++ s.sr).take
        s.sr.length := by
  rw [serialize_eq_replay, replay_sr, sampledBits_commitEvents _ _ _ h]

/-- The outputs after a commit from a low latch line are the stages. -/
theorem serialize_out (h : s.lines.latch = false) : (serialize s).out = (serialize s).sr := by
  have key : ∀ t : State, t.lines.latch = false → (pulseLatch t).out = (pulseLatch t).sr := by
    intro t ht
    simp [pulseLatch, drive_out, drive_sr, ht]
  rw [serialize]
  apply key
  rw [shiftOutBytes_eq_replay, replay_lines]
  have hl : ∀ (es : List LineEvent) (l : LineBits), (∀ e ∈ es, e.line ≠ .latch) →
      (levelsAfter es l).latch = l.latch := by
    intro es
    induction es with
    | nil => intros; rfl
    | cons e es ih =>
      intro l hes
      have he := hes e (by simp)
      rw [levelsAfter, List.foldl_cons]
      refine (ih _ fun f hf => hes f (by simp [hf])).trans ?_
      obtain ⟨ln, lv⟩ := e
      cases ln <;> first | rfl | exact absurd rfl he
  rw [hl _ _ _, h]
  intro e he
  simp only [List.mem_flatMap, byteEvents, clockPulse] at he
  obtain ⟨i, _, k, _, hk⟩ := he
  simp only [List.mem_cons, List.not_mem_nil, or_false] at hk
  rcases hk with rfl | rfl | rfl <;> simp

@[simp] theorem serialize_params : (serialize s).params = s.params := by simp [serialize_eq_replay]
@[simp] theorem serialize_word : (serialize s).word = s.word := by simp [serialize_eq_replay]
@[simp] theorem serialize_oe : (serialize s).oe = s.oe := by simp [serialize_eq_replay]
@[simp] theorem serialize_pending : (serialize s).pending = s.pending := by
  simp [serialize_eq_replay]
@[simp] theorem serialize_rspValid : (serialize s).rspValid = s.rspValid := by
  simp [serialize_eq_replay]
@[simp] theorem serialize_rsp : (serialize s).rsp = s.rsp := by simp [serialize_eq_replay]
theorem serialize_trace :
    (serialize s).trace = s.trace ++ commitEvents s.params.chips.toNat s.word := by
  simp [serialize_eq_replay]
theorem serialize_lines :
    (serialize s).lines = ⟨s.word.getLsbD (8 * s.params.chips.toNat - 8), false, false⟩ := by
  rw [serialize_eq_replay, replay_lines, levelsAfter_commitEvents]
theorem serialize_sr_length : (serialize s).sr.length = s.sr.length := by
  rw [serialize_eq_replay, replay_sr_length]


/-- The response plays no part in what an event does. -/
theorem drive_respond (v : Word) :
    drive line level (s.respond v) = (drive line level s).respond v := by
  cases line <;> cases level <;> cases h : s.lines.clock <;> cases h' : s.lines.latch <;>
    simp [drive, driveLine, chainReact, LineBits.get, h, h'] <;> rfl

theorem replay_respond (v : Word) : replay es (s.respond v) = (replay es s).respond v := by
  induction es generalizing s with
  | nil => rfl
  | cons e es ih => rw [replay_cons, drive_respond, ih, replay_cons]

theorem serialize_respond (v : Word) : serialize (s.respond v) = (serialize s).respond v := by
  rw [serialize_eq_replay, serialize_eq_replay, replay_respond]
  rfl

end Sys2Proof.Machine
end

