-- ==== Sys2Proof/Laws/PerInstr.lean ====
section
/-! SUPPORT. What the encoder puts in each field of a command word, once for every word and then per command. -/

namespace Sys2Proof

theorem opField_commandWord (op : Opcode) (idx : Index) (data : Word) :
    opField (commandWord op idx data) = op := by
  apply BitVec.eq_of_getLsbD_eq
  intro i hi
  have h1 : ¬ 72 + i < 64 := by omega
  have h2 : ¬ 72 + i - 64 < 8 := by omega
  have h3 : 72 + i - 64 - 8 = i := by omega
  simp only [opField, commandWord, BitVec.getLsbD_extractLsb', BitVec.getLsbD_append, hi, decide_true,
    Bool.true_and, h1, h2, h3, if_false]

theorem idxField_commandWord (op : Opcode) (idx : Index) (data : Word) :
    idxField (commandWord op idx data) = idx := by
  apply BitVec.eq_of_getLsbD_eq
  intro i hi
  have h1 : ¬ 64 + i < 64 := by omega
  have h2 : 64 + i - 64 = i := by omega
  simp only [idxField, commandWord, BitVec.getLsbD_extractLsb', BitVec.getLsbD_append, hi, decide_true,
    Bool.true_and, h1, h2, if_false, if_true]

theorem dataField_commandWord (op : Opcode) (idx : Index) (data : Word) :
    dataField (commandWord op idx data) = data := by
  apply BitVec.eq_of_getLsbD_eq
  intro i hi
  simp only [dataField, commandWord, BitVec.getLsbD_extractLsb', BitVec.getLsbD_append, hi, decide_true,
    Bool.true_and, Nat.zero_add, if_true]

/-- A word is what its fields say. -/
theorem commandWord_fields (w : CommandWord) : commandWord (opField w) (idxField w) (dataField w) = w := by
  apply BitVec.eq_of_getLsbD_eq
  intro i hi
  simp only [opField, idxField, dataField, commandWord, BitVec.getLsbD_append,
    BitVec.getLsbD_extractLsb', Nat.zero_add]
  by_cases h1 : i < 64
  · simp [h1]
  · by_cases h2 : i - 64 < 8
    · have : 64 + (i - 64) = i := by omega
      simp [h1, h2, this]
    · have h3 : i - 64 - 8 < 8 := by omega
      have : 72 + (i - 64 - 8) = i := by omega
      simp [h1, h2, h3, this]

namespace Laws.Encoding

/-- The three fields of an encoded command: its opcode, and its operands or zeros (30_encoding R51, R52, R55). -/
def Statement (i : Instr) : Prop :=
  opField (encode i) = i.opcode ∧ idxField (encode i) = i.index?.getD 0 ∧
    dataField (encode i) = i.data?.getD 0

theorem of_encode (i : Instr) : Statement i :=
  ⟨opField_commandWord _ _ _, idxField_commandWord _ _ _, dataField_commandWord _ _ _⟩

theorem datawidth : Statement .datawidth := of_encode _
theorem get (idx : Index) : Statement (.get idx) := of_encode _
theorem set (idx : Index) (value : Word) : Statement (.set idx value) := of_encode _
theorem sethigh (idx : Index) : Statement (.sethigh idx) := of_encode _
theorem setlow (idx : Index) : Statement (.setlow idx) := of_encode _
theorem invertbit (idx : Index) : Statement (.invertbit idx) := of_encode _
theorem setallhigh : Statement .setallhigh := of_encode _
theorem setalllow : Statement .setalllow := of_encode _
theorem invertall : Statement .invertall := of_encode _
theorem setstate (word : Word) : Statement (.setstate word) := of_encode _
theorem getstate : Statement .getstate := of_encode _
theorem write : Statement .write := of_encode _
theorem writew (word : Word) : Statement (.writew word) := of_encode _

end Laws.Encoding

end Sys2Proof
end

