-- ==== Sys2Proof/Laws/Step.lean ====
section
/-! SUPPORT. Everything a command can do, and everything a step can do, said once. -/

namespace Sys2Proof.Machine

/-- The state word after a command (the rules R70 to R107). -/
def wordAfter : Instr → State → Word
  | .datawidth, s => s.word
  | .get _, s => s.word
  | .set idx value, s =>
    if isNonzero value then s.word ||| bitMask s.params idx else s.word &&& ~~~ bitMask s.params idx
  | .sethigh idx, s => s.word ||| bitMask s.params idx
  | .setlow idx, s => s.word &&& ~~~ bitMask s.params idx
  | .invertbit idx, s => s.word ^^^ bitMask s.params idx
  | .setallhigh, s => s.params.allOnes
  | .setalllow, _ => 0
  | .invertall, s => s.params.truncate (~~~ s.word)
  | .setstate word, s => s.params.truncate word
  | .getstate, s => s.word
  | .write, s => s.word
  | .writew word, s => s.params.truncate word

/-- The response of a command (R56). -/
def responseOf : Instr → State → Word
  | .datawidth, s => BitVec.ofNat 64 s.params.dataWidth
  | .get idx, s => truthResponse (readBit idx s)
  | .getstate, s => s.word
  | .set _ _, _ | .sethigh _, _ | .setlow _, _ | .invertbit _, _ | .setallhigh, _ | .setalllow, _
  | .invertall, _ | .setstate _, _ | .write, _ | .writew _, _ => 0

/-- The state after a command: the word is written, then a committing command serializes, then the response. -/
def stateAfter (i : Instr) (s : State) : State :=
  let t := s.setWord (wordAfter i s)
  (if i.commits then serialize t else t).respond (responseOf i s)

/-- Every command completes, in every state, in the state above. -/
theorem exec_eq (i : Instr) (s : State) : exec i s = .next (stateAfter i s) := by
  cases i with
  | set idx value =>
    simp only [exec, execSet, stateAfter, wordAfter, responseOf, Instr.commits, raiseBit, clearBit]
    split <;> rfl
  | _ => rfl

theorem exec_next_iff {i : Instr} {s t : State} : exec i s = .next t ↔ t = stateAfter i s := by
  rw [exec_eq]
  exact ⟨fun h => (Host.Outcome.next.inj h).symm, fun h => by rw [h]⟩

variable (i : Instr) (s : State)

@[simp] theorem stateAfter_params : (stateAfter i s).params = s.params := by
  unfold stateAfter; split <;> simp

@[simp] theorem stateAfter_word : (stateAfter i s).word = wordAfter i s := by
  unfold stateAfter; split <;> simp

@[simp] theorem stateAfter_oe : (stateAfter i s).oe = s.oe := by
  unfold stateAfter; split <;> simp

@[simp] theorem stateAfter_pending : (stateAfter i s).pending = s.pending := by
  unfold stateAfter; split <;> simp

@[simp] theorem stateAfter_rspValid : (stateAfter i s).rspValid = true := rfl

@[simp] theorem stateAfter_rsp : (stateAfter i s).rsp = responseOf i s := rfl

theorem stateAfter_trace :
    (stateAfter i s).trace =
      s.trace ++ (if i.commits then commitEvents s.params.chips.toNat (wordAfter i s) else []) := by
  unfold stateAfter; split <;> simp [serialize_trace]

theorem stateAfter_lines :
    (stateAfter i s).lines =
      if i.commits then ⟨(wordAfter i s).getLsbD (8 * s.params.chips.toNat - 8), false, false⟩
      else s.lines := by
  unfold stateAfter; split <;> simp [serialize_lines]

/-- A command that does not commit touches neither the lines nor the chain. -/
theorem stateAfter_quiet (h : i.commits = false) :
    stateAfter i s = (s.setWord (wordAfter i s)).respond (responseOf i s) := by
  simp [stateAfter, h]

/-- The state after a command has a canonical word if the state before it has one. -/
theorem stateAfter_wf (h : Memory.wf s) : Memory.wf (stateAfter i s) := by
  have hw : Memory.wf (s.setWord (wordAfter i s)) := by
    cases i with
    | set idx value =>
      simp only [wordAfter]
      split
      · exact raiseBit_wf idx h
      · exact clearBit_wf idx h
    | sethigh idx => exact raiseBit_wf idx h
    | setlow idx => exact clearBit_wf idx h
    | invertbit idx => exact flipBit_wf idx h
    | setallhigh => exact setAllOnes_wf s
    | setalllow => exact setZero_wf s
    | invertall => exact storeWord_wf _ s
    | setstate word => exact storeWord_wf _ s
    | writew word => exact storeWord_wf _ s
    | datawidth | get | getstate | write => exact h
  simpa [Memory.wf] using hw

/-- What `take` answers, read off the port. -/
theorem take_cases :
    (s.params.pinsDistinct = false ∧ s.take = .noInstance) ∨
    (s.params.pinsDistinct = true ∧ s.pending = [] ∧ s.take = .idle) ∨
    (∃ cmd rest op, s.params.pinsDistinct = true ∧ s.pending = cmd :: rest ∧
      decode cmd = .error (.reserved op) ∧ s.take = .reserved op) ∨
    (∃ cmd rest i, s.params.pinsDistinct = true ∧ s.pending = cmd :: rest ∧
      decode cmd = .ok i ∧ s.take = .command i (s.setPending rest)) := by
  unfold State.take
  cases hp : s.params.pinsDistinct
  · simp
  · cases hq : s.pending with
    | nil => simp
    | cons cmd rest =>
      cases hd : decode cmd with
      | error e => obtain ⟨op⟩ := e; simp [hd]
      | ok i => simp [hd]

/-- If a step answers a next state, either no command was presented and nothing changed, or the next command was
executed. -/
theorem step_cases {s t : State} (h : step s = .next t) :
    (s.pending = [] ∧ t = s) ∨
    (∃ cmd rest i, s.pending = cmd :: rest ∧ decode cmd = .ok i ∧
      t = stateAfter i (s.setPending rest)) := by
  unfold step at h
  rcases take_cases s with ⟨_, ht⟩ | ⟨_, hp, ht⟩ | ⟨_, _, _, _, _, _, ht⟩ | ⟨c, r, i, _, hp, hd, ht⟩ <;>
    rw [ht] at h
  · cases h
  · cases h; exact .inl ⟨hp, rfl⟩
  · cases h
  · exact .inr ⟨c, r, i, hp, hd, exec_next_iff.mp h⟩

end Sys2Proof.Machine
end

