-- ==== Sys2Proof/Tests/Slice0.lean ====
section
/-! SUPPORT. Tests of single commands, with results from spec/95_test_vectors.md and the rules' own examples, and for
every claim with hypotheses a state that meets them. -/

namespace Sys2Proof.Tests

open Sys2Proof.Machine

/-- An instance right after reset, with `NREG = CHIPS` unless said otherwise and a chain of ones. -/
def fresh (chips : ChipCount) (policy : StoragePolicy := .table) (nreg : Nat := chips.toNat) : State :=
  State.construct ⟨chips, policy, nreg, 0, 1, 2⟩ (List.replicate (8 * nreg) true) (List.replicate (8 * nreg) true)

/-- The same with a state word. -/
def holding (w : Word) (chips : ChipCount) (policy : StoragePolicy := .table) : State :=
  (fresh chips policy).setWord w

/-- The state after a command. -/
def after (i : Instr) (s : State) : State :=
  match exec i s with
  | .next t => t
  | .fault _ => s
  | .refused _ => s

/-- A byte as the stages hold it, position 0 first. -/
def positions (b : Byte) : List Bool := (List.range 8).map b.getLsbD

/-! ### Decoding: the words of 95 section 2.8, and one with junk in unused fields -/

theorem test_decode_datawidth : decode 0x00FFDEADBEEFDEADBEEF#80 = .ok .datawidth := by decide
theorem test_decode_get : decode 0x01050000000000000000#80 = .ok (.get 5) := by decide
theorem test_decode_set : decode 0x02050000000000000001#80 = .ok (.set 5 1) := by decide
theorem test_decode_sethigh : decode 0x03170000000000000000#80 = .ok (.sethigh 23) := by decide
theorem test_decode_setlow : decode 0x043F0000000000000000#80 = .ok (.setlow 63) := by decide
theorem test_decode_invertbit : decode 0x05080000000000000000#80 = .ok (.invertbit 8) := by decide
theorem test_decode_setallhigh : decode 0x06000000000000000000#80 = .ok .setallhigh := by decide
theorem test_decode_setalllow : decode 0x07000000000000000000#80 = .ok .setalllow := by decide
theorem test_decode_invertall : decode 0x08000000000000000000#80 = .ok .invertall := by decide
theorem test_decode_setstate : decode 0x09000000000000001234#80 = .ok (.setstate 0x1234) := by decide
theorem test_decode_getstate : decode 0x0A000000000000000000#80 = .ok .getstate := by decide
theorem test_decode_write : decode 0x0BAA1234567812345678#80 = .ok .write := by decide
theorem test_decode_writew : decode 0x0C0000000000DEADBEEF#80 = .ok (.writew 0xDEADBEEF) := by decide
theorem test_decode_reserved :
    decode 0x0D000000000000000000#80 = .error (.reserved 0x0D) ∧
    decode 0xFFFFFFFFFFFFFFFFFFFF#80 = .error (.reserved 0xFF) := by decide
theorem test_encode : encode (.set 5 1) = 0x02050000000000000001#80 ∧
    encode (.writew 0xDEADBEEF) = 0x0C0000000000DEADBEEF#80 := by decide
theorem test_table_word : decodeTableWord 80 0x03170000000000000000 = some (.sethigh 23) := by decide

/-! ### Well-formedness: the one check, and a term it refuses -/

theorem test_wellFormed_accepts : (Instr.get 23).wellFormed 24 = true ∧ Instr.write.wellFormed 8 = true := by
  decide
theorem test_wellFormed_refuses_index : (Instr.get 24).wellFormed 24 = false := by decide

/-! ### Query commands (95 sections 2.1, 2.7) -/

theorem test_datawidth : (after .datawidth (fresh .three)).rsp = 24 := by decide
theorem test_get : (after (.get 12) (holding 0x1234 .two)).rsp = 1 ∧
    (after (.get 15) (holding 0x1234 .two)).rsp = 0 := by decide
theorem test_get_outside : (after (.get 31) (holding 0xAABBCCDD .three)).rsp = 1 ∧
    (after (.get 32) (holding 0xAABBCCDD .three)).rsp = 0 := by decide
theorem test_getstate : (after .getstate (holding 0x80 .one)).rsp = 0x80 := by decide

/-! ### Single-bit commands (95 sections 2.2, 2.7) -/

theorem test_set : (after (.set 3 0x100) (fresh .one)).word = 0x08 ∧
    (after (.set 3 0) (holding 0x08 .one)).word = 0x00 := by decide
theorem test_set_outside : (after (.set 9 1) (holding 0x08 .one)).word = 0x08 := by decide
theorem test_sethigh : (after (.sethigh 63) (holding 0x0123456789ABCDEE .eight)).word = 0x8123456789ABCDEE := by
  decide
theorem test_sethigh_outside : (after (.sethigh 40) (holding 0x40000000 .three)).word = 0x40000000 ∧
    (after (.sethigh 40) (holding 0x40000000 .three .wide64)).word = 0x10040000000 := by decide
theorem test_setlow : (after (.setlow 15) (holding 0xFFFF .two)).word = 0x7FFF := by decide
theorem test_invertbit : (after (.invertbit 7) (holding 0x80 .one)).word = 0x00 ∧
    (after (.invertbit 31) (fresh .four)).word = 0x80000000 := by decide

/-! ### Whole-word commands (95 sections 2.3, 2.6) -/

theorem test_setallhigh : (after .setallhigh (fresh .three)).word = 0xFFFFFFFF := by decide
theorem test_setalllow : (after .setalllow (holding 0x1234 .two)).word = 0 := by decide
theorem test_invertall : (after .invertall (holding 0x1234 .two)).word = 0xEDCB := by decide
theorem test_invertall_wide :
    (after .invertall (holding 0xABCD1234 .two .wide64)).word = 0xFFFFFFFF5432EDCB := by decide
theorem test_setstate : (after (.setstate 0x1FFAABBCCDD) (fresh .three)).word = 0xAABBCCDD ∧
    (after (.setstate 0x1FFAABBCCDD) (fresh .three .wide64)).word = 0x1FFAABBCCDD := by decide
theorem test_setstate_narrows : (after (.setstate 0x100) (fresh .one)).word = 0 := by decide

/-! ### Commits (95 section 2.4) and the chain (95 section 2.5) -/

/-- The full event list for `CHIPS = 1`, `S = 0xA5`. -/
theorem test_write_events : (after .write (holding 0xA5 .one)).trace =
    [⟨.data, true⟩, ⟨.clock, true⟩, ⟨.clock, false⟩, ⟨.data, false⟩, ⟨.clock, true⟩, ⟨.clock, false⟩,
     ⟨.data, true⟩, ⟨.clock, true⟩, ⟨.clock, false⟩, ⟨.data, false⟩, ⟨.clock, true⟩, ⟨.clock, false⟩,
     ⟨.data, false⟩, ⟨.clock, true⟩, ⟨.clock, false⟩, ⟨.data, true⟩, ⟨.clock, true⟩, ⟨.clock, false⟩,
     ⟨.data, false⟩, ⟨.clock, true⟩, ⟨.clock, false⟩, ⟨.data, true⟩, ⟨.clock, true⟩, ⟨.clock, false⟩,
     ⟨.latch, true⟩, ⟨.latch, false⟩] := by decide
/-- Registers `0x12 0x34`, nearest first. -/
theorem test_write_registers : (after .write (holding 0x1234 .two)).out = positions 0x12 ++ positions 0x34 := by
  decide
/-- `0xAA` is storage-only and is not sent. -/
theorem test_writew_registers : (after (.writew 0xAABBCCDD) (fresh .three)).out =
    positions 0xBB ++ positions 0xCC ++ positions 0xDD := by decide +kernel
theorem test_writew_lines : (after (.writew 0x0123456789ABCDEF) (fresh .eight)).lines = ⟨true, false, false⟩ := by decide +kernel
theorem test_longer_chain : (after (.writew 0x3C) (after (.writew 0xA5) (fresh .one .table 2))).out =
    positions 0x3C ++ positions 0xA5 := by decide +kernel
theorem test_shorter_chain : (after (.writew 0x1234) (fresh .two .table 1)).out = positions 0x12 := by decide
theorem test_chain_shift : shiftStages true [true, false, true, false, false, true, false, true] =
    [true, true, false, true, false, false, true, false] := by decide

/-! ### The textual form (30_encoding R60) -/

theorem test_read_line : readLine "GET 5 -> 1 ; a listing".toList = .command (.get 5) := by decide
theorem test_read_hexadecimal : readLine "SET 0x1F, 4660".toList = .command (.set 31 0x1234) := by decide
theorem test_read_header : readLine "CHAIN chips=3 policy=wide64".toList =
    .chain ⟨.three, .wide64, 3, 0, 1, 2⟩ := by decide
theorem test_read_malformed : readLine "GET 256".toList = .malformed ∧ readLine "SET 5".toList = .malformed := by
  decide

/-- The model's choices on what R60 leaves open (notes/assumptions/20.md, 21.md, 22.md, 23.md). -/
theorem test_read_choices :
    readLine "CHAIN chips=1 policy=table data=PA0 clock=PA1 latch=PA2".toList = .malformed ∧
    readLine "CHAIN chips=0x3 policy=table".toList = .chain ⟨.three, .table, 3, 0, 1, 2⟩ ∧
    readLine "SETALLHIGH -> 0".toList = .command .setallhigh ∧ readLine "-> 0".toList = .blank ∧
    loadListing [] [] ["; a title".toList, "CHAIN chips=1 policy=table".toList] = none := by decide

/-! ### Witnesses: states and operands that meet the hypotheses of the claims -/

/-- A state between commands: `CHIPS = 3`, storage-only bits set. -/
def waiting : State := holding 0xAABBCCDD .three

/-- A state after a commit, `CHIPS = 1`. -/
def committed : State := after .write (holding 0xA5 .one)

/-- An instance with a data pin that is also its clock pin. -/
def shared : State := State.construct ⟨.one, .table, 1, 4, 4, 5⟩ (List.replicate 8 false) (List.replicate 8 false)

theorem witness_StepRunsTheDecodedCommand :
    (waiting.present 0x0A000000000000000000#80).params.pinsDistinct = true ∧
    (waiting.present 0x0A000000000000000000#80).pending = 0x0A000000000000000000#80 :: [] ∧
    decode 0x0A000000000000000000#80 = .ok .getstate := by decide
theorem witness_StepWithoutCommandHoldsTheState :
    waiting.params.pinsDistinct = true ∧ waiting.pending = [] := by decide
theorem witness_ReservedWordIsRefused :
    (waiting.present 0x0D000000000000000000#80).params.pinsDistinct = true ∧
    (waiting.present 0x0D000000000000000000#80).pending = 0x0D000000000000000000#80 :: [] ∧
    0x0D ≤ (opField 0x0D000000000000000000#80).toNat := by decide
theorem witness_SharedPinsAreRefused :
    ¬(shared.params.dataPin ≠ shared.params.clockPin ∧ shared.params.dataPin ≠ shared.params.latchPin ∧
      shared.params.clockPin ≠ shared.params.latchPin) := by decide
theorem witness_PresentedCommandRunsNext : waiting.params.pinsDistinct = true := by decide
/-- The two clauses on the index at their boundary: the highest bit of the storage, and the first index outside it. -/
theorem witness_GetAnswersTheBit : (31 : Index).toNat < waiting.params.storageWidth ∧
    waiting.params.storageWidth ≤ (32 : Index).toNat ∧ 1 ≤ 63 := by decide
theorem witness_GetstateAnswersTheWholeWord : Memory.wf waiting ∧ 31 < waiting.params.storageWidth ∧
    waiting.params.storageWidth ≤ 32 ∧ (0xFFFFFF : Word).toNat < 2 ^ waiting.params.dataWidth := by decide
theorem witness_SingleBitCommandsTouchOneBit : (31 : Index).toNat < waiting.params.storageWidth ∧
    30 ≠ (31 : Index).toNat ∧ waiting.params.storageWidth ≤ (32 : Index).toNat := by decide
theorem witness_SetWritesTheNonzeroTest : (0x8000000000000000 : Word) ≠ 0 ∧ (0 : Word) = 0 := by decide
theorem witness_SethighSetsOneBit : (23 : Index).toNat < waiting.params.dataWidth := by decide
theorem witness_SetallhighSetsEveryBit : (23 : Index).toNat < waiting.params.dataWidth := by decide
theorem witness_InvertallComplementsTheWord : Memory.wf waiting ∧ 31 < waiting.params.storageWidth ∧
    waiting.params.storageWidth ≤ 32 := by decide
theorem witness_SetstateStoresTheNarrowedWord : 31 < waiting.params.storageWidth := by decide
theorem witness_WriteSendsTheStateWord :
    waiting.chainFits ∧ waiting.lines.clock = false ∧ waiting.lines.latch = false := by decide
theorem witness_IdempotentAndInvolutiveCommands : Memory.wf waiting := by decide
theorem witness_WholeWordIdentities :
    Memory.wf waiting ∧ (List.range 32).reverse.Perm (List.range waiting.params.storageWidth) :=
  ⟨by decide, List.reverse_perm _⟩
theorem witness_MixedWidthViewsAgree : 7 < 8 ∧ 8 * 3 + 7 < waiting.params.storageWidth ∧ 6 ≠ 7 ∧ 2 ≠ 3 := by
  decide
/-- Out of range at its boundary, inside the storage and outside it. -/
theorem witness_OutOfRangeIndexDisturbsNothing :
    waiting.params.dataWidth ≤ (24 : Index).toNat ∧ (24 : Index).toNat < waiting.params.storageWidth ∧
    waiting.params.dataWidth ≤ (32 : Index).toNat ∧ waiting.params.storageWidth ≤ (32 : Index).toNat := by
  decide
theorem witness_CommandsAreMemoryAccesses :
    Memory.wf waiting ∧ (31 : Index).toNat < waiting.params.storageWidth := by decide
theorem witness_OnlyCommitsTouchLinesAndChain :
    Instr.getstate ≠ .write ∧ ∀ w, Instr.getstate ≠ .writew w := ⟨by decide, fun _ h => nomatch h⟩
theorem witness_DriveSetsOneLineAndRecordsTheEvent :
    Line.clock ≠ Line.data ∧ exec .write waiting = .next (after .write waiting) := ⟨by decide, rfl⟩
theorem witness_PulsesRiseOnceAndEndLow : waiting.lines.clock = false ∧ waiting.lines.latch = false := by decide
theorem witness_CommitPutsTheEventsInOrder :
    (⟨true, false, false⟩ : LineBits).clock = false ∧ (⟨true, false, false⟩ : LineBits).latch = false := by decide
theorem witness_ListenerReadsTheBytesInOrder :
    waiting.lines.clock = false ∧ 2 < waiting.params.chips.toNat ∧ 7 < 8 := by decide
theorem witness_LinesAfterACommit : exec .write waiting = .next (after .write waiting) ∧
    exec .getstate waiting = .next (after .getstate waiting) := ⟨rfl, rfl⟩
theorem witness_StorageOnlyBitsAreNeverSent : waiting.params.chips = (holding 0xBBCCDD .three .wide64).params.chips ∧
    ∀ j, j < waiting.params.dataWidth →
      waiting.word.getLsbD j = (holding 0xBBCCDD .three .wide64).word.getLsbD j := by decide
theorem witness_RisingClockShiftsTheStages :
    waiting.lines.clock = false ∧ 0 < waiting.sr.length ∧ 22 + 1 < waiting.sr.length := by decide
theorem witness_RisingLatchLoadsTheOutputs : waiting.lines.latch = false := by decide
theorem witness_OtherEventsLeaveTheChainAlone :
    ¬(Line.clock = .clock ∧ waiting.lines.clock = false ∧ false = true) ∧
    ¬(Line.clock = .latch ∧ waiting.lines.latch = false ∧ false = true) := by decide
theorem witness_OutputsHoldUntilTheLatchPulse : 72 ≤ 24 * waiting.params.chips.toNat := by decide
theorem witness_CommitPlacesEveryBit : waiting.chainFits ∧ waiting.lines.clock = false ∧
    waiting.lines.latch = false ∧ 2 < waiting.params.chips.toNat ∧ 7 < 8 := by decide
/-- A chain of three registers behind an instance of two: the last stage the commit reaches, and the first and the
last beyond it; for either command. -/
theorem witness_CommitOnAChainOfAnyLength :
    (fresh .two .table 3).sr.length = 8 * (fresh .two .table 3).params.nreg ∧
    (fresh .two .table 3).lines.clock = false ∧ (fresh .two .table 3).lines.latch = false ∧
    8 * 1 + 7 < (fresh .two .table 3).params.dataWidth ∧ 8 * 1 + 7 < 8 * (fresh .two .table 3).params.nreg ∧
    (fresh .two .table 3).params.dataWidth ≤ 16 ∧ 23 < 8 * (fresh .two .table 3).params.nreg ∧
    (Instr.writew 0x1234, (0x1234 : Word)) ∈ [(.write, (fresh .two .table 3).word), (.writew 0x1234, 0x1234)] := by decide
theorem witness_FirstCommitDefinesTheOutputs : (fresh .eight).chainFits := by decide
/-- The same pins of `CHIPS = 3` under the two policies, with different storage-only bits, and a command in range. -/
theorem witness_StoragePolicyShowsInGetstateOnly :
    SameButStorage (holding 0xAABBCCDD .three) (holding 0x1FF00BBCCDD .three .wide64) ∧
    (Instr.get 23).wellFormed (holding 0xAABBCCDD .three).params.dataWidth = true ∧ Instr.get 23 ≠ .getstate :=
  ⟨⟨rfl, rfl, ⟨rfl, rfl, rfl⟩, by decide, rfl, rfl, rfl, rfl, rfl, rfl⟩, by decide, by decide⟩
theorem witness_InvariantHoldsAtReset : (List.replicate 16 true).length = 8 * (fresh .two).params.nreg ∧
    (List.replicate 16 false).length = 8 * (fresh .two).params.nreg := by decide
theorem witness_StepKeepsTheInvariant :
    committed.Inv ∧ step (committed.present 0x0B000000000000000000#80) = .next (after .write committed) :=
  ⟨⟨by decide +kernel, by decide +kernel, by decide +kernel, by decide +kernel, by decide +kernel,
    by decide +kernel, by decide +kernel, by decide +kernel, fun _ => by decide +kernel,
    fun _ => by decide +kernel⟩, rfl⟩
theorem witness_ConstantsNeverChange :
    step (waiting.present 0x0B000000000000000000#80) = .next (after .write waiting) := rfl
theorem witness_CommandsAndEventsAreInOrder :
    step (waiting.present 0x08000000000000000000#80) = .next (after .invertall waiting) := rfl
theorem witness_RunsOfKnownCommandsComplete :
    (waiting.present 0x0C0000000000DEADBEEF#80).params.pinsDistinct = true ∧
    (waiting.present 0x0C0000000000DEADBEEF#80).pending.all acceptedWord = true := by decide
theorem witness_ListingLoadsAsARun : readLine "CHAIN chips=2 policy=table".toList =
    .chain ⟨.two, .table, 2, 0, 1, 2⟩ := by decide

end Sys2Proof.Tests
end

/-! PROOF. The pins and the constants, the accesses to the state word, and what of the storage can be told from
outside (00_scope R5, R7, 10_state R13, R18, R20). -/

namespace Sys2Proof

theorem Params.pinsDistinct_iff (p : Params) :
    p.pinsDistinct = true ↔
      p.dataPin ≠ p.clockPin ∧ p.dataPin ≠ p.latchPin ∧ p.clockPin ≠ p.latchPin := by
  simp [Params.pinsDistinct, and_assoc]

namespace Machine

/-! ### The pins and the constants -/

/-- Settles O9: with two equal pins only the first case is left of `take_cases`. -/
theorem sharedPinsAreRefused : Obligations.SharedPinsAreRefused := by
  intro s hshared
  have hpins : ¬ s.params.pinsDistinct = true := mt s.params.pinsDistinct_iff.mp hshared
  obtain ⟨_, htake⟩ | ⟨hp, _⟩ | ⟨_, _, _, hp, _⟩ | ⟨_, _, _, hp, _⟩ := take_cases s
  · rw [step, htake]
  · exact absurd hp hpins
  · exact absurd hp hpins
  · exact absurd hp hpins

/-- Settles O51: a step holds the state or runs a command, and `stateAfter` keeps both constants. -/
theorem constantsNeverChange : Obligations.ConstantsNeverChange := by
  intro s t hstep
  obtain ⟨_, rfl⟩ | ⟨cmd, rest, i, _, _, rfl⟩ := step_cases hstep
  · exact ⟨rfl, rfl⟩
  · simp

/-! ### Loads and stores of the state word -/

section Access

variable {idx : Index} {s : State}

theorem memRead_one (addr : Nat) (s : State) :
    memRead addr 1 s = BitVec.ofBool (s.word.getLsbD addr) := by
  apply BitVec.eq_of_getLsbD_eq
  intro i hi
  obtain rfl : i = 0 := by omega
  simp [memRead]

/-- Reading the whole storage is reading the word, since no bit stands above `SW` (R32). -/
theorem setWidth_memRead_word (hwf : Memory.wf s) :
    (memRead 0 s.params.storageWidth s).setWidth 64 = s.word := by
  apply BitVec.eq_of_getLsbD_eq
  intro i hi
  by_cases hsw : i < s.params.storageWidth
  · simp [memRead, hi, hsw]
  · simp [memRead, hsw, Memory.wf_iff.mp hwf i (by omega)]

theorem truthResponse_readBit (hidx : idx.toNat < s.params.storageWidth) :
    truthResponse (readBit idx s) = (memRead idx.toNat 1 s).setWidth 64 := by
  rw [readBit, if_pos hidx, memRead_one]
  cases s.word.getLsbD idx.toNat <;> decide

/-- A word that has bit 0 of `v` at `idx` and the bits of the state word elsewhere is what a one-bit store of `v`
leaves. -/
theorem setWord_eq_memWrite_one {v w : Word} (hwf : Memory.wf s)
    (hidx : idx.toNat < s.params.storageWidth) (hat : w.getLsbD idx.toNat = v.getLsbD 0)
    (helse : ∀ j, j ≠ idx.toNat → w.getLsbD j = s.word.getLsbD j) :
    s.setWord w = memWrite idx.toNat 1 v s := by
  suffices hword : w = (memWrite idx.toNat 1 v s).word by rw [hword]; rfl
  apply BitVec.eq_of_getLsbD_eq
  intro j _
  rw [getLsbD_memWrite _ _ _ _ _ (by decide)]
  by_cases hj : j = idx.toNat
  · subst hj; simp [hat, hidx]
  · have hout : ¬(idx.toNat ≤ j ∧ j < idx.toNat + 1) := by omega
    rw [if_neg hout, helse j hj]
    by_cases hsw : j < s.params.storageWidth
    · simp [hsw]
    · simp [Memory.wf_iff.mp hwf j (by omega)]

theorem raiseBit_eq_memWrite (hwf : Memory.wf s) (hidx : idx.toNat < s.params.storageWidth) :
    raiseBit idx s = memWrite idx.toNat 1 1 s :=
  setWord_eq_memWrite_one (w := (raiseBit idx s).word) hwf hidx
    (by simp [getLsbD_raiseBit, hidx]) fun j hj => by simp [getLsbD_raiseBit, hj]

theorem clearBit_eq_memWrite (hwf : Memory.wf s) (hidx : idx.toNat < s.params.storageWidth) :
    clearBit idx s = memWrite idx.toNat 1 0 s :=
  setWord_eq_memWrite_one (w := (clearBit idx s).word) hwf hidx
    (by simp [getLsbD_clearBit, hidx]) fun j hj => by simp [getLsbD_clearBit, hj]

/-- `1 - b` for a bit `b` is its complement. -/
theorem getLsbD_one_sub_memRead (addr : Nat) (s : State) :
    (1 - (memRead addr 1 s).setWidth 64 : Word).getLsbD 0 = !s.word.getLsbD addr := by
  rw [memRead_one]
  cases s.word.getLsbD addr <;> decide

theorem flipBit_eq_memWrite (hwf : Memory.wf s) (hidx : idx.toNat < s.params.storageWidth) :
    flipBit idx s = memWrite idx.toNat 1 (1 - (memRead idx.toNat 1 s).setWidth 64) s :=
  setWord_eq_memWrite_one (w := (flipBit idx s).word) hwf hidx
    (by rw [getLsbD_one_sub_memRead, getLsbD_flipBit, if_pos ⟨rfl, hidx⟩])
    fun j hj => by simp [getLsbD_flipBit, hj]

theorem storeWord_eq_memWrite (w : Word) (s : State) :
    storeWord w s = memWrite 0 s.params.storageWidth w s := by
  suffices hword : (storeWord w s).word = (memWrite 0 s.params.storageWidth w s).word by
    exact congrArg s.setWord hword
  apply BitVec.eq_of_getLsbD_eq
  intro j _
  rw [getLsbD_storeWord, getLsbD_memWrite _ _ _ _ _ s.params.storageWidth_le]
  by_cases hsw : j < s.params.storageWidth
  · simp [hsw]
  · simp [hsw]

end Access

/-- Settles O30: each access command's operation on the word is the memory access of the lemmas above. -/
theorem commandsAreMemoryAccesses : Obligations.CommandsAreMemoryAccesses := by
  intro idx w s hwf hidx
  refine ⟨?get, ?sethigh, ?setlow, ?invertbit, ?getstate, ?setstate, ?byte⟩
  case get => rw [← truthResponse_readBit hidx]; rfl
  case sethigh => rw [← raiseBit_eq_memWrite hwf hidx]; rfl
  case setlow => rw [← clearBit_eq_memWrite hwf hidx]; rfl
  case invertbit => rw [← flipBit_eq_memWrite hwf hidx]; rfl
  case getstate => rw [setWidth_memRead_word hwf]; rfl
  case setstate => rw [← storeWord_eq_memWrite]; rfl
  case byte => intro i; rfl

/-! ### Two machines that differ in storage only -/

/-- The events of a commit depend on the bits below `8*CHIPS` only (R108). -/
theorem commitEvents_congr {chips : Nat} {v w : Word}
    (h : ∀ j, j < chips * 8 → v.getLsbD j = w.getLsbD j) :
    commitEvents chips v = commitEvents chips w := by
  have hbytes : ∀ i ∈ List.range chips, byteEvents v i = byteEvents w i := by
    intro i hi
    have hlt : i < chips := List.mem_range.mp hi
    refine List.flatMap_congr fun k hk => ?_
    have hk8 : k < 8 := (by decide : ∀ k ∈ [7, 6, 5, 4, 3, 2, 1, 0], k < 8) k hk
    rw [h (8 * i + k) (by omega)]
  exact congrArg (· ++ latchPulse) (List.flatMap_congr hbytes)

theorem wellFormed_get_iff (dw : Nat) (idx : Index) :
    (Instr.get idx).wellFormed dw = true ↔ idx.toNat < dw :=
  decide_eq_true_iff

namespace SameButStorage

variable {s t : State} (h : SameButStorage s t)
include h

theorem dataWidth : t.params.dataWidth = s.params.dataWidth := by
  rw [Params.dataWidth_eq, Params.dataWidth_eq, h.chips]

theorem lt_storageWidth {j : Nat} (hj : j < s.params.dataWidth) :
    j < s.params.storageWidth ∧ j < t.params.storageWidth :=
  ⟨hj.trans_le s.params.dataWidth_le_storageWidth,
    (h.dataWidth ▸ hj).trans_le t.params.dataWidth_le_storageWidth⟩

/-! The operations of a command, one after another, keep the relation. -/

theorem setWord {v w : Word} (hw : ∀ j, j < s.params.dataWidth → w.getLsbD j = v.getLsbD j) :
    SameButStorage (s.setWord v) (t.setWord w) :=
  { h with addressable := hw }

theorem respond (v w : Word) : SameButStorage (s.respond v) (t.respond w) :=
  { h with }

theorem drive (line : Line) (level : Bool) :
    SameButStorage (drive line level s) (drive line level t) where
  chips := by simpa using h.chips
  nreg := by simpa using h.nreg
  pins := by simpa using h.pins
  addressable := by simpa using h.addressable
  lines := by simp [h.lines]
  oe := by simp [h.oe]
  trace := by simp [h.trace]
  sr := by simp only [drive_sr, h.lines, h.sr]
  out := by simp only [drive_out, h.lines, h.sr, h.out]
  pending := by simp [h.pending]

omit h in
theorem replay (es : List LineEvent) {s t : State} (h : SameButStorage s t) :
    SameButStorage (replay es s) (replay es t) := by
  induction es generalizing s t with
  | nil => exact h
  | cons e es ih => exact ih (h.drive e.line e.level)

/-- A commit is the same list of events on both sides. -/
theorem serialize : SameButStorage (serialize s) (serialize t) := by
  have hevents : commitEvents t.params.chips.toNat t.word =
      commitEvents s.params.chips.toNat s.word := by
    rw [h.chips]; exact commitEvents_congr h.addressable
  rw [serialize_eq_replay s, serialize_eq_replay t, hevents]
  exact h.replay _

/-- No command lets a storage-only bit, or the width of the storage, into an addressable bit. -/
theorem getLsbD_wordAfter (i : Instr) {j : Nat} (hj : j < s.params.dataWidth) :
    (wordAfter i t).getLsbD j = (wordAfter i s).getLsbD j := by
  have hbit := h.addressable j hj
  obtain ⟨hs, ht⟩ := h.lt_storageWidth hj
  cases i with
  | set idx value =>
    simp only [wordAfter]
    split
    · simp [hbit, hs, ht]
    · simp [hbit, hs, ht]
  | sethigh | setlow | invertbit | setallhigh | invertall | setstate | writew =>
    simp [wordAfter, hbit, hs, ht]
  | setalllow => rfl
  | datawidth | get | getstate | write => exact hbit

theorem readBit_eq {idx : Index} (hidx : idx.toNat < s.params.dataWidth) :
    readBit idx t = readBit idx s := by
  obtain ⟨hs, ht⟩ := h.lt_storageWidth hidx
  rw [readBit, readBit, if_pos hs, if_pos ht, h.addressable _ hidx]

/-- Only GETSTATE answers storage-only bits, as long as a GET's index is in range (R13). -/
theorem responseOf_eq {i : Instr} (hi : i.wellFormed s.params.dataWidth = true)
    (hne : i ≠ .getstate) : responseOf i t = responseOf i s := by
  cases i with
  | datawidth => rw [responseOf, responseOf, h.dataWidth]
  | get idx => rw [responseOf, responseOf, h.readBit_eq ((wellFormed_get_iff _ _).mp hi)]
  | getstate => exact absurd rfl hne
  | _ => rfl

theorem stateAfter (i : Instr) : SameButStorage (stateAfter i s) (stateAfter i t) := by
  have hword := h.setWord fun _ hj => h.getLsbD_wordAfter i hj
  cases hc : i.commits with
  | false =>
    rw [stateAfter_quiet i s hc, stateAfter_quiet i t hc]
    exact hword.respond _ _
  | true =>
    simpa [Machine.stateAfter, hc] using hword.serialize.respond _ _

end SameButStorage

/-- Settles O47: the relation is kept by what every command is made of, and the responses agree. -/
theorem storagePolicyShowsInGetstateOnly : Obligations.StoragePolicyShowsInGetstateOnly := by
  intro s t h i hi
  exact ⟨stateAfter i s, stateAfter i t, exec_eq i s, exec_eq i t, h.stateAfter i,
    h.responseOf_eq hi⟩

end Machine

end Sys2Proof

/-! PROOF. The step and the command presented to it, which commands leave the lines and the chain alone, when the
outputs move during a commit, and the invariant of the machine (10_state R10 to R24, 43_commit_ops R109). -/

namespace Sys2Proof

theorem decode_encode (i : Instr) : decode (encode i) = .ok i := by
  obtain ⟨hop, hidx, hdata⟩ := Laws.Encoding.of_encode i
  cases i <;> simp [decode, hop, hidx, hdata, Instr.opcode, Instr.index?, Instr.data?]

theorem Instr.commits_eq_false_iff (i : Instr) :
    i.commits = false ↔ i ≠ .write ∧ ∀ w, i ≠ .writew w := by
  cases i <;> simp [Instr.commits]

namespace Machine

/-! ### The step and the presented command -/

section Step

variable {s : State} {cmd : CommandWord} {rest : List CommandWord} {i : Instr}

theorem take_of_decode (hpins : s.params.pinsDistinct = true) (hpend : s.pending = cmd :: rest)
    (hdec : decode cmd = .ok i) : s.take = .command i (s.setPending rest) := by
  simp [State.take, hpins, hpend, hdec]

theorem step_of_decode (hpins : s.params.pinsDistinct = true) (hpend : s.pending = cmd :: rest)
    (hdec : decode cmd = .ok i) : step s = exec i (s.setPending rest) := by
  rw [step, take_of_decode hpins hpend hdec]

end Step

/-- Settles O6: of the four answers of the port only the command is left. -/
theorem stepRunsTheDecodedCommand : Obligations.StepRunsTheDecodedCommand :=
  fun _ _ _ _ hpins hpend hdec => step_of_decode hpins hpend hdec

/-- The host's move puts a whole command word at the head of the list. -/
theorem withFetchWord_toNat (s : State) (cmd : CommandWord) :
    s.withFetchWord 80 cmd.toNat = s.present cmd := by
  rw [State.withFetchWord, Nat.mod_eq_of_lt cmd.isLt, BitVec.ofNat_toNat, BitVec.setWidth_eq]

/-- Settles O10: the encoding decodes to the command, and taking the word off again restores the state. -/
theorem presentedCommandRunsNext : Obligations.PresentedCommandRunsNext := by
  intro s i hpins
  rw [withFetchWord_toNat]
  exact step_of_decode (s := s.present (encode i)) hpins rfl (decode_encode i)

/-! ### Commands that do not commit -/

theorem sameOutside_stateAfter {i : Instr} (hquiet : i.commits = false) (s : State) :
    SameOutside s (stateAfter i s) := by
  rw [stateAfter_quiet i s hquiet]
  exact ⟨rfl, rfl, rfl, rfl, rfl, rfl, rfl⟩

/-- Settles O31: only the word and the response are written by a command that does not commit. -/
theorem onlyCommitsTouchLinesAndChain : Obligations.OnlyCommitsTouchLinesAndChain := by
  intro i s hwrite hwritew
  have hquiet : i.commits = false := i.commits_eq_false_iff.mpr ⟨hwrite, hwritew⟩
  exact ⟨stateAfter i s, exec_eq i s, stateAfter_rspValid i s, sameOutside_stateAfter hquiet s⟩

/-! ### The outputs during a commit -/

/-- The events of a commit before its latch pulse. -/
def shiftEvents (chips : Nat) (w : Word) : List LineEvent := (List.range chips).flatMap (byteEvents w)

theorem commitEvents_eq_append (chips : Nat) (w : Word) :
    commitEvents chips w = shiftEvents chips w ++ latchPulse := rfl

theorem length_shiftEvents (chips : Nat) (w : Word) : (shiftEvents chips w).length = 24 * chips := by
  have hbyte : ∀ i, (byteEvents w i).length = 24 := fun _ => rfl
  simp [shiftEvents, List.length_flatMap, hbyte, Nat.mul_comm]

theorem line_ne_latch_of_mem_shiftEvents {chips : Nat} {w : Word} {e : LineEvent}
    (he : e ∈ shiftEvents chips w) : e.line ≠ .latch := by
  simp only [shiftEvents, byteEvents, clockPulse, List.mem_flatMap, List.mem_cons,
    List.not_mem_nil, or_false] at he
  obtain ⟨_, _, _, _, rfl | rfl | rfl⟩ := he <;> simp

/-- Settles O43: the events before the latch pulse drive only the data and the clock line. -/
theorem outputsHoldUntilTheLatchPulse : Obligations.OutputsHoldUntilTheLatchPulse := by
  intro s
  refine ⟨serialize_eq_replay s, fun k hk => ?_⟩
  have htake : (commitEvents s.params.chips.toNat s.word).take k =
      (shiftEvents s.params.chips.toNat s.word).take k := by
    rw [commitEvents_eq_append, List.take_append_of_le_length (by rwa [length_shiftEvents])]
  rw [htake]
  exact replay_out s _ fun e he => line_ne_latch_of_mem_shiftEvents (List.mem_of_mem_take he)

/-! ### The invariant -/

theorem levelsAfter_append (es fs : List LineEvent) (l : LineBits) :
    levelsAfter (es ++ fs) l = levelsAfter fs (levelsAfter es l) :=
  List.foldl_append

theorem truncate_wordAfter (i : Instr) {s : State} (hwf : Memory.wf s) :
    s.params.truncate (wordAfter i s) = wordAfter i s := by
  simpa [Memory.wf] using stateAfter_wf i s hwf

theorem inv_construct {p : Params} {sr out : List Bool} (hsr : sr.length = 8 * p.nreg)
    (hout : out.length = 8 * p.nreg) : (State.construct p sr out).Inv where
  word := construct_wf p sr out
  stages := hsr
  outputs := hout
  enabled := rfl
  levels := rfl
  clockLow := rfl
  latchLow := rfl
  wholeCommits := Nat.zero_mod _
  latched hne := absurd rfl hne
  answered hne := absurd rfl hne

/-- Settles O49: reset is a construction on a chain of the right length. -/
theorem invariantHoldsAtReset : Obligations.InvariantHoldsAtReset :=
  ⟨fun _ _ _ => inv_construct, inv_construct rfl rfl⟩

namespace State.Inv

variable {s : State} (h : s.Inv)
include h

theorem setPending (cmds : List CommandWord) : (s.setPending cmds).Inv := { h with }

theorem setWord {w : Word} (hw : s.params.truncate w = w) : (s.setWord w).Inv := { h with word := hw }

theorem respond (v : Word) : (s.respond v).Inv := { h with answered := fun _ => rfl }

/-- A commit with its response: the chain has latched, and one commit's events are added to the trace. -/
theorem serialize_respond (v : Word) : ((serialize s).respond v).Inv := by
  have hlatched : (serialize s).out = (serialize s).sr := serialize_out s h.latchLow
  have hstages : (serialize s).sr.length = 8 * s.params.nreg :=
    (serialize_sr_length s).trans h.stages
  exact
    { word := by simpa [Memory.wf] using h.word
      stages := by simpa using hstages
      outputs := by simpa [hlatched] using hstages
      enabled := by simpa using h.enabled
      levels := by simp [serialize_eq_replay, levelsAfter_append, ← h.levels]
      clockLow := by simp [serialize_lines]
      latchLow := by simp [serialize_lines]
      wholeCommits := by simpa [serialize_trace, length_commitEvents] using h.wholeCommits
      latched := fun _ => hlatched
      answered := fun _ => rfl }

theorem stateAfter (i : Instr) : (stateAfter i s).Inv := by
  have hword : (s.setWord (wordAfter i s)).Inv := h.setWord (truncate_wordAfter i h.word)
  cases hc : i.commits with
  | false => rw [stateAfter_quiet i s hc]; exact hword.respond _
  | true => simpa [Machine.stateAfter, hc] using hword.serialize_respond (responseOf i s)

end State.Inv

/-- Settles O50: a step holds the state or runs a command on the state with the word taken off. -/
theorem stepKeepsTheInvariant : Obligations.StepKeepsTheInvariant := by
  intro s t hinv hstep
  obtain ⟨_, rfl⟩ | ⟨cmd, rest, i, _, _, rfl⟩ := step_cases hstep
  · exact hinv
  · exact (hinv.setPending rest).stateAfter i

end Machine

end Sys2Proof

/-! PROOF. What a single-bit command can reach, the views of the state word, which commands are idempotent, what a
listener and the chain receive in a commit, and the order of the steps (20_memory R33 to R42). -/

namespace Sys2Proof.Machine

variable {i : Instr} {idx : Index} {s : State}

/-! ### The order of commands and events -/

/-- Settles O52: the events a step adds are those of the one command it takes. -/
theorem commandsAndEventsAreInOrder : Obligations.CommandsAndEventsAreInOrder := by
  intro s t hstep
  obtain hidle | ⟨cmd, rest, i, hpend, _, rfl⟩ := step_cases hstep
  · exact .inl hidle
  · refine .inr ⟨cmd, by simpa using hpend, ?_⟩
    cases hc : i.commits with
    | false => exact .inl (by simp [stateAfter_trace, hc])
    | true => exact .inr (by simp [stateAfter_trace, hc])

/-! ### What a commit sends and where it lands -/

theorem sentBit_byte (w : Word) (j : Nat) {k : Nat} (hk : k < 8) :
    sentBit w (8 * j + k) = w.getLsbD (8 * j + (7 - k)) := by
  rw [sentBit]
  congr 1
  omega

/-- Settles O37: the sampled bits are the sent ones, read off byte by byte. -/
theorem listenerReadsTheBytesInOrder : Obligations.ListenerReadsTheBytesInOrder := by
  intro s hclock
  refine ⟨commitEvents s.params.chips.toNat s.word, serialize_trace s, ?_, fun i k hi hk => ?_⟩
  · rw [sampledBits_commitEvents _ _ _ hclock, Params.dataWidth_eq, Nat.mul_comm]
    rfl
  · have hlt : 8 * i + k < 8 * s.params.chips.toNat := by omega
    rw [sampledBits_commitEvents _ _ _ hclock, byteOf_getLsbD _ _ _ (by omega), ← sentBit_byte _ _ hk]
    simp [hlt]

/-- Where a commit puts a bit it sends: the byte sent first travels farthest, and within a byte bit 7, sent first,
is in the last stage (R136). -/
theorem getElem?_serialize_sr (hclock : s.lines.clock = false) {j k : Nat} (hj : j < s.params.chips.toNat)
    (hk : k < 8) (hstage : 8 * (s.params.chips.toNat - 1 - j) + k < s.sr.length) :
    (serialize s).sr[8 * (s.params.chips.toNat - 1 - j) + k]? = some (s.word.getLsbD (8 * j + k)) := by
  have hsent : 8 * (s.params.chips.toNat - 1 - j) + k < 8 * s.params.chips.toNat := by omega
  have hturn : 8 * s.params.chips.toNat - 1 - (8 * (s.params.chips.toNat - 1 - j) + k) = 8 * j + (7 - k) := by
    omega
  have hbit : sentBit s.word (8 * j + (7 - k)) = s.word.getLsbD (8 * j + k) := by
    rw [sentBit_byte _ _ (by omega)]
    congr 1
    omega
  rw [serialize_sr s hclock, List.getElem?_take_of_lt hstage, List.getElem?_append_left (by simpa using hsent),
    List.getElem?_reverse (by simpa using hsent)]
  simp only [List.length_map, List.length_range, hturn, List.getElem?_map, ← hbit]
  rw [List.getElem?_range (by omega)]
  rfl

theorem stateAfter_of_commits (hc : i.commits = true) (s : State) :
    stateAfter i s = (serialize (s.setWord (wordAfter i s))).respond (responseOf i s) := by
  simp [stateAfter, hc]

/-- Settles O44: the outputs are the stages, and every stage is within the reach of the commit. -/
theorem commitPlacesEveryBit : Obligations.CommitPlacesEveryBit := by
  intro s w hfit hclock hlatch i hi
  obtain ⟨hnreg, hsr, _⟩ := hfit
  have hc : i.commits = true := by
    simp only [List.mem_cons, List.not_mem_nil, or_false] at hi
    obtain rfl | rfl := hi <;> rfl
  have hout : (stateAfter i s).out = (stateAfter i s).sr := by
    rw [stateAfter_of_commits hc]; exact serialize_out _ hlatch
  have hlength : (stateAfter i s).sr.length = s.params.dataWidth := by
    rw [stateAfter_of_commits hc, Params.dataWidth_eq, ← hnreg, Nat.mul_comm, ← hsr]
    exact serialize_sr_length _
  have hstage : ∀ j k, j < s.params.chips.toNat → k < 8 →
      (stateAfter i s).sr[8 * (s.params.chips.toNat - 1 - j) + k]? =
        some ((stateAfter i s).word.getLsbD (8 * j + k)) := by
    intro j k hj hk
    rw [stateAfter_word, stateAfter_of_commits hc]
    exact getElem?_serialize_sr (s := s.setWord (wordAfter i s)) hclock hj hk
      (by simp only [State.setWord_params, State.setWord_sr]; omega)
  refine ⟨stateAfter i s, exec_eq i s, hlength, hout ▸ hlength, fun j k hj hk => ⟨hstage j k hj hk, ?_⟩⟩
  rw [hout]
  exact hstage j k hj hk

/-! ### What a single-bit command reaches -/

theorem commits_of_index? (h : i.index? = some idx) : i.commits = false := by
  cases i with
  | write | writew => cases h
  | _ => rfl

/-- SET is SETHIGH or SETLOW, by the test of its value (R61, R81). -/
theorem wordAfter_set (idx : Index) (value : Word) (s : State) :
    wordAfter (.set idx value) s =
      if value ≠ 0 then wordAfter (.sethigh idx) s else wordAfter (.setlow idx) s := by
  simp [wordAfter, isNonzero]

/-- A command with an index leaves every bit alone but the one at the index, and that one too where the storage has no
such bit (R38, R80). -/
theorem getLsbD_wordAfter_of_unreached (h : i.index? = some idx) {j : Nat}
    (hj : ¬(j = idx.toNat ∧ j < s.params.storageWidth)) :
    (wordAfter i s).getLsbD j = s.word.getLsbD j := by
  have hhigh : (wordAfter (.sethigh idx) s).getLsbD j = s.word.getLsbD j :=
    (getLsbD_raiseBit idx s j).trans (if_neg hj)
  have hlow : (wordAfter (.setlow idx) s).getLsbD j = s.word.getLsbD j :=
    (getLsbD_clearBit idx s j).trans (if_neg hj)
  cases i with
  | get => rfl
  | set _ value => cases h; rw [wordAfter_set]; split <;> assumption
  | sethigh => cases h; exact hhigh
  | setlow => cases h; exact hlow
  | invertbit => cases h; exact (getLsbD_flipBit idx s j).trans (if_neg hj)
  | _ => cases h

theorem wordAfter_of_storageWidth_le (h : i.index? = some idx) (hidx : s.params.storageWidth ≤ idx.toNat) :
    wordAfter i s = s.word :=
  BitVec.eq_of_getLsbD_eq fun _ _ => getLsbD_wordAfter_of_unreached h (by omega)

theorem responseOf_of_storageWidth_le (h : i.index? = some idx) (hidx : s.params.storageWidth ≤ idx.toNat) :
    responseOf i s = 0 := by
  cases i with
  | get => cases h; simp [responseOf, readBit, truthResponse, Nat.not_lt.mpr hidx]
  | set | sethigh | setlow | invertbit => rfl
  | _ => cases h

section InStorage

variable (hidx : idx.toNat < s.params.storageWidth)
include hidx

/-! The bit at an index that the storage has. -/

theorem responseOf_get : responseOf (.get idx) s = if s.word.getLsbD idx.toNat then 1 else 0 := by
  simp [responseOf, readBit, truthResponse, hidx]

theorem getLsbD_wordAfter_sethigh : (wordAfter (.sethigh idx) s).getLsbD idx.toNat = true :=
  (getLsbD_raiseBit idx s _).trans (if_pos ⟨rfl, hidx⟩)

theorem getLsbD_wordAfter_setlow : (wordAfter (.setlow idx) s).getLsbD idx.toNat = false :=
  (getLsbD_clearBit idx s _).trans (if_pos ⟨rfl, hidx⟩)

theorem getLsbD_wordAfter_set (value : Word) :
    (wordAfter (.set idx value) s).getLsbD idx.toNat = decide (value ≠ 0) := by
  rw [wordAfter_set]
  split <;> rename_i hv
  · rw [getLsbD_wordAfter_sethigh hidx, decide_eq_true hv]
  · rw [getLsbD_wordAfter_setlow hidx, decide_eq_false hv]

theorem getLsbD_wordAfter_invertbit :
    (wordAfter (.invertbit idx) s).getLsbD idx.toNat = !s.word.getLsbD idx.toNat :=
  (getLsbD_flipBit idx s _).trans (if_pos ⟨rfl, hidx⟩)

end InStorage

/-- Settles O29: an index at or above `DW` is no addressable bit, and the command reaches no other. -/
theorem outOfRangeIndexDisturbsNothing : Obligations.OutOfRangeIndexDisturbsNothing := by
  intro idx value s hout
  refine ⟨fun i hi => ?_, fun hidx => ⟨?get, ?set, ?sethigh, ?setlow, ?invertbit⟩⟩
  · have h : i.index? = some idx := by
      simp only [List.mem_cons, List.not_mem_nil, or_false] at hi
      obtain rfl | rfl | rfl | rfl | rfl := hi <;> rfl
    have hother : ∀ j, j ≠ idx.toNat → (stateAfter i s).word.getLsbD j = s.word.getLsbD j := fun j hj => by
      rw [stateAfter_word, getLsbD_wordAfter_of_unreached h (fun hat => hj hat.1)]
    refine ⟨stateAfter i s, exec_eq i s, fun j hj => hother j (by omega), hother,
      sameOutside_stateAfter (commits_of_index? h) s, fun hnone => ⟨?_, ?_⟩⟩
    · rw [stateAfter_word, wordAfter_of_storageWidth_le h hnone]
    · rw [stateAfter_rsp, responseOf_of_storageWidth_le h hnone]
  case get => exact ⟨_, exec_eq _ s, responseOf_get hidx⟩
  case set => exact ⟨_, exec_eq _ s, by rw [stateAfter_word, getLsbD_wordAfter_set hidx]⟩
  case sethigh => exact ⟨_, exec_eq _ s, by rw [stateAfter_word, getLsbD_wordAfter_sethigh hidx]⟩
  case setlow => exact ⟨_, exec_eq _ s, by rw [stateAfter_word, getLsbD_wordAfter_setlow hidx]⟩
  case invertbit => exact ⟨_, exec_eq _ s, by rw [stateAfter_word, getLsbD_wordAfter_invertbit hidx]⟩

/-! ### Bits, bytes and the word -/

theorem byteOf_congr {v w : Word} {a : Nat} (h : ∀ k, k < 8 → v.getLsbD (8 * a + k) = w.getLsbD (8 * a + k)) :
    byteOf v a = byteOf w a := by
  apply BitVec.eq_of_getLsbD_eq
  intro k hk
  rw [byteOf_getLsbD v a k hk, byteOf_getLsbD w a k hk, h k hk]

/-- Settles O28: every view is read off the bits of the word, and INVERTBIT reaches one of them. -/
theorem mixedWidthViewsAgree : Obligations.MixedWidthViewsAgree := by
  intro s
  refine ⟨fun idx hidx => ?_, fun a k hk => byteOf_getLsbD s.word a k hk, fun a k hk hbit => ?_⟩
  · refine ⟨_, _, exec_eq _ s, exec_eq _ s, ?_⟩
    rw [stateAfter_rsp, stateAfter_rsp, responseOf_get hidx]
    show s.word.getLsbD idx.toNat = _
    cases s.word.getLsbD idx.toNat <;> rfl
  · have hsw := s.params.storageWidth_le
    have hidx : (BitVec.ofNat 8 (8 * a + k)).toNat = 8 * a + k := by
      rw [BitVec.toNat_ofNat]; omega
    have hat := getLsbD_wordAfter_invertbit (s := s) (hidx.symm ▸ hbit)
    rw [hidx] at hat
    have hother : ∀ j, j ≠ 8 * a + k →
        (wordAfter (.invertbit (BitVec.ofNat 8 (8 * a + k))) s).getLsbD j = s.word.getLsbD j := fun j hj =>
      getLsbD_wordAfter_of_unreached rfl fun hreached => hj (hreached.1.trans hidx)
    refine ⟨_, exec_eq _ s, ?_, fun k' hk' hne => ?_, fun a' hne => ?_⟩
    · rw [stateAfter_word, byteOf_getLsbD _ _ _ hk, byteOf_getLsbD _ _ _ hk, hat]
    · rw [stateAfter_word, byteOf_getLsbD _ _ _ hk', byteOf_getLsbD _ _ _ hk', hother _ (by omega)]
    · exact byteOf_congr fun k' hk' => by rw [stateAfter_word, hother _ (by omega)]

/-! ### Doing a command twice -/

/-- A command that does not commit changes nothing the second time if the word and the response come out the same. -/
theorem stateAfter_idem (hquiet : i.commits = false)
    (hword : wordAfter i (stateAfter i s) = wordAfter i s)
    (hrsp : responseOf i (stateAfter i s) = responseOf i s) :
    stateAfter i (stateAfter i s) = stateAfter i s := by
  rw [stateAfter_quiet i (stateAfter i s) hquiet, hword, hrsp, stateAfter_quiet i s hquiet]
  rfl

theorem stateAfter_sethigh_idem (idx : Index) (s : State) :
    stateAfter (.sethigh idx) (stateAfter (.sethigh idx) s) = stateAfter (.sethigh idx) s :=
  stateAfter_idem rfl (by simp [wordAfter, BitVec.or_assoc]) rfl

theorem stateAfter_setlow_idem (idx : Index) (s : State) :
    stateAfter (.setlow idx) (stateAfter (.setlow idx) s) = stateAfter (.setlow idx) s :=
  stateAfter_idem rfl (by simp [wordAfter, BitVec.and_assoc]) rfl

theorem stateAfter_set (idx : Index) (value : Word) (s : State) :
    stateAfter (.set idx value) s =
      if value ≠ 0 then stateAfter (.sethigh idx) s else stateAfter (.setlow idx) s := by
  rw [stateAfter_quiet _ s rfl, wordAfter_set]
  split <;> rfl

theorem runCommands_cons (i : Instr) (is : List Instr) (s : State) :
    runCommands (i :: is) s = runCommands is (stateAfter i s) := by
  rw [runCommands, exec_eq]

theorem runCommands_pair (i j : Instr) (s : State) :
    runCommands [i, j] s = .next (stateAfter j (stateAfter i s)) := by
  rw [runCommands_cons, runCommands_cons, runCommands]

theorem wordAfter_invertbit_twice (idx : Index) (s : State) :
    wordAfter (.invertbit idx) (stateAfter (.invertbit idx) s) = s.word := by
  simp [wordAfter]

theorem wordAfter_invertall_twice (hwf : Memory.wf s) :
    wordAfter .invertall (stateAfter .invertall s) = s.word := by
  apply BitVec.eq_of_getLsbD_eq
  intro j hj
  by_cases hsw : j < s.params.storageWidth
  · simp only [wordAfter, stateAfter_word, stateAfter_params, Params.getLsbD_truncate, BitVec.getLsbD_not, hj, hsw,
      decide_true, Bool.true_and, Bool.and_true, Bool.not_not]
  · simp [wordAfter, hsw, Memory.wf_iff.mp hwf j (by omega)]

/-- Settles O26: the reads from the word they keep, the setting commands and the inversions from the algebra of their
masks, and WRITE from the length of a commit. -/
theorem idempotentAndInvolutiveCommands : Obligations.IdempotentAndInvolutiveCommands := by
  intro s
  refine ⟨fun idx i hi => ?reads, fun idx value i hi => ?setting, fun idx => ?invertbit, fun hwf => ?invertall,
    ?write⟩
  case reads =>
    have h : i.commits = false ∧ (∀ t, wordAfter i t = t.word) ∧
        responseOf i (stateAfter i s) = responseOf i s := by
      simp only [List.mem_cons, List.not_mem_nil, or_false] at hi
      obtain rfl | rfl | rfl := hi
      all_goals exact ⟨rfl, fun _ => rfl, rfl⟩
    obtain ⟨hquiet, hword, hrsp⟩ := h
    have hkept : (stateAfter i s).word = s.word := (stateAfter_word i s).trans (hword s)
    refine ⟨_, exec_eq i s, sameOutside_stateAfter hquiet s, hkept, ?_⟩
    rw [exec_eq, stateAfter_idem hquiet (by rw [hword, hword, hkept]) hrsp]
  case setting =>
    refine ⟨_, exec_eq i s, ?_⟩
    rw [exec_eq]
    congr 1
    simp only [List.mem_cons, List.not_mem_nil, or_false] at hi
    obtain rfl | rfl | rfl | rfl | rfl | rfl := hi
    · exact stateAfter_sethigh_idem idx s
    · exact stateAfter_setlow_idem idx s
    · simp only [stateAfter_set]
      split
      · exact stateAfter_sethigh_idem idx s
      · exact stateAfter_setlow_idem idx s
    all_goals exact stateAfter_idem rfl rfl rfl
  case invertbit =>
    exact ⟨_, runCommands_pair _ _ s, (stateAfter_word _ _).trans (wordAfter_invertbit_twice idx s)⟩
  case invertall =>
    exact ⟨_, runCommands_pair _ _ s, (stateAfter_word _ _).trans (wordAfter_invertall_twice hwf)⟩
  case write =>
    refine ⟨_, exec_eq .write s, stateAfter_word .write s, ?_⟩
    simp [stateAfter_trace, Instr.commits, length_commitEvents]

end Sys2Proof.Machine

/-! PROOF. The decoder on any word, by its opcode alone: the thirteen rows of the opcode table, the reserved words,
and the fields a command does not use (30_encoding R51 to R58); the equivalences of R61. -/

namespace Sys2Proof

variable {w : CommandWord}

/-- Settles O1: the fields of an encoded command are its opcode and its operands, which `decode` reads back. -/
theorem encodedCommandDecodesBack : Obligations.EncodedCommandDecodesBack := decode_encode

/-! ### The opcode decides -/

theorem toNat_opField (w : CommandWord) : (opField w).toNat = w.toNat / 2 ^ 72 := by
  have hw := w.isLt
  rw [opField, BitVec.extractLsb'_toNat, Nat.shiftRight_eq_div_pow]
  omega

/-- Below 0x0D a word is a command, the one of its opcode (R52). -/
theorem decode_of_opField_lt (h : (opField w).toNat < 0x0D) :
    ∃ i, decode w = .ok i ∧ i.opcode = opField w := by
  rw [decode]
  interval_cases hop : (opField w).toNat
  all_goals exact ⟨_, rfl, BitVec.eq_of_toNat_eq hop.symm⟩

/-- From 0x0D on a word is reserved (R57). -/
theorem decode_of_le_opField (h : 0x0D ≤ (opField w).toNat) :
    decode w = .error (.reserved (opField w)) := by
  unfold decode
  split
  case h_14 => rfl
  all_goals omega

/-- Settles O3: below 0x0D and from there on, the two lemmas above. -/
theorem everyWordIsACommandOrReserved : Obligations.EveryWordIsACommandOrReserved := by
  intro w
  rw [← toNat_opField, BitVec.ofNat_toNat, BitVec.setWidth_eq]
  obtain hlt | hge := Nat.lt_or_ge (opField w).toNat 0x0D
  · obtain ⟨i, hdec, hop⟩ := decode_of_opField_lt hlt
    exact .inl ⟨hlt, i, hdec, congrArg BitVec.toNat hop⟩
  · exact .inr ⟨hge, decode_of_le_opField hge⟩

/-- Settles O5: `decode` is evaluated on each word. -/
theorem listedWordsDecode : Obligations.ListedWordsDecode := by
  unfold Obligations.ListedWordsDecode
  decide

/-! ### The opcode table -/

/-- The thirteen rows of the opcode table, opcode and mnemonic (R52). -/
def opcodeTable : List (Opcode × String) :=
  [(0x00, "DATAWIDTH"), (0x01, "GET"), (0x02, "SET"), (0x03, "SETHIGH"), (0x04, "SETLOW"), (0x05, "INVERTBIT"),
    (0x06, "SETALLHIGH"), (0x07, "SETALLLOW"), (0x08, "INVERTALL"), (0x09, "SETSTATE"), (0x0A, "GETSTATE"),
    (0x0B, "WRITE"), (0x0C, "WRITEW")]

theorem Instr.mem_opcodeTable (i : Instr) : (i.opcode, i.mnemonic) ∈ opcodeTable := by
  cases i <;> simp [opcodeTable, Instr.opcode, Instr.mnemonic]

theorem opcodeTable_fst_lt : ∀ r ∈ opcodeTable, r.1.toNat < 0x0D := by decide

/-- No opcode and no mnemonic stands in two rows. -/
theorem opcodeTable_fst_eq_iff : ∀ q ∈ opcodeTable, ∀ r ∈ opcodeTable, q.1 = r.1 ↔ q.2 = r.2 := by decide

theorem opField_eq_iff_exists_decode {r : Opcode × String} (hr : r ∈ opcodeTable) :
    opField w = r.1 ↔ ∃ i, decode w = .ok i ∧ i.mnemonic = r.2 := by
  obtain hlt | hge := Nat.lt_or_ge (opField w).toNat 0x0D
  · obtain ⟨i, hdec, hop⟩ := decode_of_opField_lt hlt
    rw [← hop, opcodeTable_fst_eq_iff _ i.mem_opcodeTable _ hr, hdec]
    simp
  · have hne : opField w ≠ r.1 := fun heq => Nat.not_lt.mpr hge (heq ▸ opcodeTable_fst_lt r hr)
    simp [hne, decode_of_le_opField hge]

theorem commandWord_and (op op' : Opcode) (idx idx' : Index) (data data' : Word) :
    commandWord op idx data &&& commandWord op' idx' data' =
      commandWord (op &&& op') (idx &&& idx') (data &&& data') :=
  BitVec.and_append.trans (congrArg (· ++ (data &&& data')) BitVec.and_append)

/-- The mask of the table leaves the opcode, with zeros below it. -/
theorem and_mask_eq_commandWord (w : CommandWord) :
    w &&& 0xFF000000000000000000#80 = commandWord (opField w) 0 0 := by
  have hmask : 0xFF000000000000000000#80 = commandWord (BitVec.allOnes 8) 0 0 := by decide
  calc w &&& 0xFF000000000000000000#80
    _ = commandWord (opField w) (idxField w) (dataField w) &&& commandWord (BitVec.allOnes 8) 0 0 := by
        rw [commandWord_fields, hmask]
    _ = commandWord (opField w &&& BitVec.allOnes 8) (idxField w &&& 0) (dataField w &&& 0) := commandWord_and ..
    _ = commandWord (opField w) 0 0 := by rw [BitVec.and_allOnes]; simp

theorem and_mask_eq_iff (op : Opcode) :
    w &&& 0xFF000000000000000000#80 = commandWord op 0 0 ↔ opField w = op := by
  rw [and_mask_eq_commandWord]
  refine ⟨fun h => ?_, fun h => by rw [h]⟩
  simpa only [opField_commandWord] using congrArg opField h

/-- Settles O2: both sides say that the opcode is the row's. -/
theorem tableRowSelectsItsCommand : Obligations.TableRowSelectsItsCommand := by
  intro w row hrow
  change row ∈ opcodeTable.map fun r => (commandWord r.1 0 0, r.2) at hrow
  obtain ⟨r, hr, rfl⟩ := List.mem_map.mp hrow
  exact (and_mask_eq_iff r.1).trans (opField_eq_iff_exists_decode hr)

/-! ### The fields a command does not use -/

/-- Only the operands of a command have to stand in its word (R55). -/
theorem decode_commandWord (i : Instr) {idx : Index} {data : Word} (hidx : i.index?.getD idx = idx)
    (hdata : i.data?.getD data = data) : decode (commandWord i.opcode idx data) = .ok i := by
  cases i <;> simp_all [decode, opField_commandWord, idxField_commandWord, dataField_commandWord, Instr.opcode,
    Instr.index?, Instr.data?]

theorem idxField_encode_of_index?_eq_none {i : Instr} (h : i.index? = none) : idxField (encode i) = 0 := by
  obtain ⟨_, hidx, _⟩ := Laws.Encoding.of_encode i
  rw [hidx, h]; rfl

theorem dataField_encode_of_data?_eq_none {i : Instr} (h : i.data? = none) : dataField (encode i) = 0 := by
  obtain ⟨_, _, hdata⟩ := Laws.Encoding.of_encode i
  rw [hdata, h]; rfl

/-- Settles O4: each clause is `decode_commandWord` for its command, or the zero of a field without an operand. -/
theorem unusedFieldsAreIgnored : Obligations.UnusedFieldsAreIgnored := by
  refine ⟨fun idx data => ⟨?_, ?_, ?_, ?_, ?_, ?_, ?_, ?_, ?_, ?_, ?_, ?_, ?_⟩, fun i hi => ?_, fun idx i hi => ?_,
    fun data i hi => ?_⟩
  · exact decode_commandWord .datawidth rfl rfl
  · exact decode_commandWord (.get idx) rfl rfl
  · exact decode_commandWord (.set idx data) rfl rfl
  · exact decode_commandWord (.sethigh idx) rfl rfl
  · exact decode_commandWord (.setlow idx) rfl rfl
  · exact decode_commandWord (.invertbit idx) rfl rfl
  · exact decode_commandWord .setallhigh rfl rfl
  · exact decode_commandWord .setalllow rfl rfl
  · exact decode_commandWord .invertall rfl rfl
  · exact decode_commandWord (.setstate data) rfl rfl
  · exact decode_commandWord .getstate rfl rfl
  · exact decode_commandWord .write rfl rfl
  · exact decode_commandWord (.writew data) rfl rfl
  · obtain ⟨hidx, hdata⟩ : i.index? = none ∧ i.data? = none := by
      simp only [List.mem_cons, List.not_mem_nil, or_false] at hi
      obtain rfl | rfl | rfl | rfl | rfl | rfl := hi <;> exact ⟨rfl, rfl⟩
    exact ⟨idxField_encode_of_index?_eq_none hidx, dataField_encode_of_data?_eq_none hdata⟩
  · have h : i.data? = none := by
      simp only [List.mem_cons, List.not_mem_nil, or_false] at hi
      obtain rfl | rfl | rfl | rfl := hi <;> rfl
    exact dataField_encode_of_data?_eq_none h
  · have h : i.index? = none := by
      simp only [List.mem_cons, List.not_mem_nil, or_false] at hi
      obtain rfl | rfl := hi <;> rfl
    exact idxField_encode_of_index?_eq_none h

namespace Machine

/-- Settles O8: the port answers that the word is reserved, and the step refuses it. -/
theorem reservedWordIsRefused : Obligations.ReservedWordIsRefused := by
  intro s cmd rest hpins hpend hop
  have htake : s.take = .reserved (opField cmd) := by
    simp [State.take, hpins, hpend, decode_of_le_opField hop]
  rw [step, htake]

/-! ### The stated equivalences -/

/-- The response of SETSTATE between the two commands is replaced by that of WRITE (R107). -/
theorem stateAfter_writew (w : Word) (s : State) :
    stateAfter (.writew w) s = stateAfter .write (stateAfter (.setstate w) s) :=
  (congrArg (State.respond 0) (serialize_respond (s.setWord (s.params.truncate w)) 0)).symm

/-- Settles O25: SET by the test of its value, WRITEW by the state between its two halves. -/
theorem statedEquivalencesHold : Obligations.StatedEquivalencesHold := by
  intro idx value w s
  refine ⟨fun hvalue => ?_, ?_, ?_⟩
  · rw [exec_eq, exec_eq, stateAfter_set, if_pos hvalue]
  · rw [exec_eq, exec_eq, stateAfter_set, if_neg (by simp)]
  · rw [exec_eq, runCommands_pair, stateAfter_writew]

end Machine

end Sys2Proof

/-! PROOF. The textual form: how the line reader takes a line apart, decimal numerals, and the lines and listings
that `writeLine` makes (30_encoding R60, 70_reset_and_hazards R165). -/

namespace Sys2Proof.Machine

/-! ### Words of a line -/

/-- A mnemonic or a numeral: no stage of the line reader acts on its characters. -/
structure IsWord (cs : List Char) : Prop where
  ne_nil : cs ≠ []
  alphanum : ∀ c ∈ cs, c.isAlphanum = true

/-- A text that the reader keeps whole: no comment, no arrow, and no blank at either end. -/
structure IsText (cs : List Char) : Prop where
  noComment : ';' ∉ cs
  noArrow : '-' ∉ cs
  head : ∀ c ∈ cs.head?, isBlank c = false
  last : ∀ c ∈ cs.getLast?, isBlank c = false

theorem isBlank_iff {c : Char} : isBlank c = true ↔ c = ' ' ∨ c = '\t' := by
  simp [isBlank]

namespace IsWord

variable {cs : List Char} (h : IsWord cs)
include h

theorem not_mem {c : Char} (hc : c.isAlphanum = false) : c ∉ cs := fun hmem =>
  Bool.false_ne_true (hc.symm.trans (h.alphanum c hmem))

theorem not_blank {c : Char} (hc : c ∈ cs) : isBlank c = false := by
  rw [← Bool.not_eq_true, isBlank_iff]
  rintro (rfl | rfl)
  · exact h.not_mem (by decide) hc
  · exact h.not_mem (by decide) hc

theorem isText : IsText cs where
  noComment := h.not_mem (by decide)
  noArrow := h.not_mem (by decide)
  head _ hc := h.not_blank (List.mem_of_mem_head? hc)
  last _ hc := h.not_blank (List.mem_of_mem_getLast? hc)

end IsWord

/-- Between two texts any character may stand that starts no comment and no arrow. -/
theorem IsText.append {cs ds : List Char} (hc : IsText cs) (hcs : cs ≠ []) (hd : IsText ds) (hds : ds ≠ [])
    {sep : List Char} (hcomment : ';' ∉ sep) (harrow : '-' ∉ sep) : IsText (cs ++ (sep ++ ds)) where
  noComment := by simp [hc.noComment, hcomment, hd.noComment]
  noArrow := by simp [hc.noArrow, harrow, hd.noArrow]
  head := by
    rw [List.head?_append_of_ne_nil _ hcs]; exact hc.head
  last := by
    rw [List.getLast?_append_of_ne_nil _ (by simp [hds]), List.getLast?_append_of_ne_nil _ hds]; exact hd.last

theorem dropComment_eq_self {cs : List Char} (h : ';' ∉ cs) : dropComment cs = cs := by
  rw [dropComment, List.takeWhile_eq_self_iff]
  intro c hc
  simp only [bne_iff_ne]
  rintro rfl
  exact h hc

theorem dropArrow_eq_self {cs : List Char} (h : '-' ∉ cs) : dropArrow cs = cs := by
  induction cs using dropArrow.induct with
  | case1 => rfl
  | case2 => simp at h
  | case3 c cs hne ih =>
    rw [dropArrow, ih fun hmem => h (List.mem_cons_of_mem c hmem)]
    exact hne

theorem IsText.trim_eq_self {cs : List Char} (h : IsText cs) : trim cs = cs := by
  have hhead : cs.dropWhile isBlank = cs := by
    cases cs with
    | nil => rfl
    | cons c cs => rw [List.dropWhile_cons_of_neg (by simp [h.head c rfl])]
  have hlast : cs.reverse.dropWhile isBlank = cs.reverse := by
    cases hr : cs.reverse with
    | nil => rfl
    | cons c ds =>
      rw [List.dropWhile_cons_of_neg]
      have hc : c ∈ cs.getLast? := by rw [← List.head?_reverse, hr]; rfl
      simp [h.last c hc]
  rw [trim, hhead, hlast, List.reverse_reverse]

/-- The reader's first pass over a line keeps a text. -/
theorem IsText.body_eq {cs : List Char} (h : IsText cs) : trim (dropArrow (dropComment cs)) = cs := by
  rw [dropComment_eq_self h.noComment, dropArrow_eq_self h.noArrow, h.trim_eq_self]

theorem trim_space_cons (cs : List Char) : trim (' ' :: cs) = trim cs := rfl

theorem pieces_of_not_mem {cs : List Char} (h : ',' ∉ cs) : pieces (fun c => c == ',') cs = [cs] := by
  induction cs with
  | nil => rfl
  | cons c cs ih =>
    obtain ⟨hc, hcs⟩ : ',' ≠ c ∧ ',' ∉ cs := by simpa using h
    simp [pieces, ih hcs, Ne.symm hc]

theorem pieces_append_comma {cs : List Char} (h : ',' ∉ cs) (ds : List Char) :
    pieces (fun c => c == ',') (cs ++ ',' :: ds) = cs :: pieces (fun c => c == ',') ds := by
  induction cs with
  | nil => rfl
  | cons c cs ih =>
    obtain ⟨hc, hcs⟩ : ',' ≠ c ∧ ',' ∉ cs := by simpa using h
    simp [pieces, ih hcs, Ne.symm hc]

/-! ### Decimal numerals -/

theorem isWord_toDigits (n : Nat) : IsWord (Nat.toDigits 10 n) where
  ne_nil := Nat.toDigits_ne_nil
  alphanum c hc := by
    have hdigit : c.isDigit = true := Nat.isDigit_of_mem_toDigits (by decide) (by decide) hc
    rw [Char.isAlphanum, hdigit, Bool.or_true]

theorem digitValue_of_isDigit {c : Char} (hc : c.isDigit = true) : digitValue c = c.toNat - '0'.toNat := by
  rw [digitValue, if_pos hc]

theorem digitValue_lt_ten {c : Char} (hc : c.isDigit = true) : digitValue c < 10 := by
  have hnine : c.toNat ≤ 57 := (Char.isDigit_iff_toNat.mp hc).2
  have hzero : '0'.toNat = 48 := rfl
  rw [digitValue_of_isDigit hc]
  omega

/-- On decimal digits the reader computes what the library does. -/
theorem digitsValue_ten {cs : List Char} (hcs : ∀ c ∈ cs, c.isDigit = true) (acc : Nat) :
    digitsValue 10 acc cs = some (Nat.ofDigitChars 10 cs acc) := by
  induction cs generalizing acc with
  | nil => rw [digitsValue, Nat.ofDigitChars_nil]
  | cons c cs ih =>
    obtain ⟨hc, hcs⟩ := List.forall_mem_cons.mp hcs
    rw [digitsValue, if_pos (digitValue_lt_ten hc), ih hcs, digitValue_of_isDigit hc,
      Nat.ofDigitChars_eq_foldl, Nat.ofDigitChars_eq_foldl, List.foldl_cons]

/-- No decimal numeral begins as a hexadecimal one does. -/
theorem numeral_of_isDigit {cs : List Char} (hne : cs ≠ []) (hcs : ∀ c ∈ cs, c.isDigit = true) :
    numeral cs = digitsValue 10 0 cs := by
  have hx : ¬ 'x'.isDigit = true := by decide
  unfold numeral
  split
  case h_1 => exact absurd rfl hne
  case h_2 => exact absurd (hcs 'x' (by simp)) hx
  case h_3 => exact absurd (hcs 'x' (by simp)) hx
  case h_4 => rfl

theorem numeral_toDigits (n : Nat) : numeral (Nat.toDigits 10 n) = some n := by
  have hdigits : ∀ c ∈ Nat.toDigits 10 n, c.isDigit = true := fun _ =>
    Nat.isDigit_of_mem_toDigits (by decide) (by decide)
  rw [numeral_of_isDigit Nat.toDigits_ne_nil hdigits, digitsValue_ten hdigits, Nat.ofDigitChars_ten_toDigits]

theorem indexOperand_toDigits (idx : Index) : indexOperand (Nat.toDigits 10 idx.toNat) = some idx := by
  simp [indexOperand, numeral_toDigits, idx.isLt]

theorem dataOperand_toDigits (w : Word) : dataOperand (Nat.toDigits 10 w.toNat) = some w := by
  simp [dataOperand, numeral_toDigits, w.isLt]

/-! ### One line -/

section Line

variable {name text : List Char} {i : Instr}

theorem takeWhile_name (hname : IsWord name) (rest : List Char) :
    (name ++ rest).takeWhile (fun c => !isBlank c) = name ++ rest.takeWhile (fun c => !isBlank c) :=
  List.takeWhile_append_of_pos fun c hc => by rw [hname.not_blank hc, Bool.not_false]

theorem dropWhile_name (hname : IsWord name) (rest : List Char) :
    (name ++ rest).dropWhile (fun c => !isBlank c) = rest.dropWhile (fun c => !isBlank c) :=
  List.dropWhile_append_of_pos fun c hc => by rw [hname.not_blank hc, Bool.not_false]

variable (hname : IsWord name) (hchain : name ≠ "CHAIN".toList)
include hname hchain

theorem readLine_bare (hspelled : spelled name [] = some i) : readLine name = .command i := by
  have hhead : name.takeWhile (fun c => !isBlank c) = name := by
    simpa only [List.append_nil, List.takeWhile_nil] using takeWhile_name hname []
  have htail : name.dropWhile (fun c => !isBlank c) = [] := by
    simpa only [List.append_nil, List.dropWhile_nil] using dropWhile_name hname []
  have htrim : trim [] = [] := rfl
  simp only [readLine, hname.isText.body_eq, hhead, htail, htrim, if_neg hname.ne_nil, if_neg hchain, if_true,
    hspelled]

theorem readLine_operands (htext : IsText text) (hne : text ≠ [])
    (hspelled : spelled name ((pieces (fun c => c == ',') text).map trim) = some i) :
    readLine (name ++ ' ' :: text) = .command i := by
  have hline : IsText (name ++ ' ' :: text) :=
    hname.isText.append hname.ne_nil htext hne (sep := [' ']) (by decide) (by decide)
  have hhead : (name ++ ' ' :: text).takeWhile (fun c => !isBlank c) = name :=
    (takeWhile_name hname _).trans (List.append_nil name)
  have htail : (name ++ ' ' :: text).dropWhile (fun c => !isBlank c) = ' ' :: text := dropWhile_name hname _
  simp only [readLine, hline.body_eq, hhead, htail, trim_space_cons, htext.trim_eq_self, if_neg hname.ne_nil,
    if_neg hchain, if_neg hne, hspelled]

end Line

/-! ### The line written for a command -/

theorem isWord_mnemonic (i : Instr) : IsWord i.mnemonic.toList := by
  have hall : ∀ r ∈ opcodeTable, r.2.toList ≠ [] ∧ ∀ c ∈ r.2.toList, c.isAlphanum = true := by
    simp [opcodeTable]
  obtain ⟨hne, halpha⟩ := hall _ i.mem_opcodeTable
  exact ⟨hne, halpha⟩

theorem mnemonic_ne_chain (i : Instr) : i.mnemonic.toList ≠ "CHAIN".toList :=
  (by decide : ∀ r ∈ opcodeTable, r.2.toList ≠ "CHAIN".toList) _ i.mem_opcodeTable

section Write

variable {i : Instr}

theorem readLine_writeLine_bare (htext : operandText i = []) (hspelled : spelled i.mnemonic.toList [] = some i) :
    readLine (writeLine i) = .command i := by
  rw [writeLine, htext, List.append_nil]
  exact readLine_bare (isWord_mnemonic i) (mnemonic_ne_chain i) hspelled

theorem readLine_writeLine_one {n : Nat} (htext : operandText i = ' ' :: Nat.toDigits 10 n)
    (hspelled : spelled i.mnemonic.toList [Nat.toDigits 10 n] = some i) :
    readLine (writeLine i) = .command i := by
  have hn := isWord_toDigits n
  rw [writeLine, htext]
  apply readLine_operands (isWord_mnemonic i) (mnemonic_ne_chain i) hn.isText hn.ne_nil
  rw [pieces_of_not_mem (hn.not_mem (by decide)), List.map_singleton, hn.isText.trim_eq_self, hspelled]

theorem readLine_writeLine_two {m n : Nat}
    (htext : operandText i = ' ' :: Nat.toDigits 10 m ++ [',', ' '] ++ Nat.toDigits 10 n)
    (hspelled : spelled i.mnemonic.toList [Nat.toDigits 10 m, Nat.toDigits 10 n] = some i) :
    readLine (writeLine i) = .command i := by
  have hm := isWord_toDigits m
  have hn := isWord_toDigits n
  have hboth : IsText (Nat.toDigits 10 m ++ ',' :: ' ' :: Nat.toDigits 10 n) :=
    hm.isText.append hm.ne_nil hn.isText hn.ne_nil (sep := [',', ' ']) (by decide) (by decide)
  have hsecond : ',' ∉ ' ' :: Nat.toDigits 10 n :=
    List.not_mem_cons_of_ne_of_not_mem (by decide) (hn.not_mem (by decide))
  rw [writeLine, htext, List.append_assoc]
  apply readLine_operands (isWord_mnemonic i) (mnemonic_ne_chain i) hboth (by simp)
  rw [pieces_append_comma (hm.not_mem (by decide)), pieces_of_not_mem hsecond, List.map_cons, List.map_singleton,
    trim_space_cons, hm.isText.trim_eq_self, hn.isText.trim_eq_self, hspelled]

end Write

/-- Settles O54: by how many operands the command has; the spelling of each is read back as a numeral of its field. -/
theorem writtenLineIsReadBack : Obligations.WrittenLineIsReadBack := by
  intro i
  cases i with
  | datawidth | setallhigh | setalllow | invertall | getstate | write => exact readLine_writeLine_bare rfl rfl
  | get idx | sethigh idx | setlow idx | invertbit idx =>
    exact readLine_writeLine_one rfl (by simp [spelled, Instr.mnemonic, indexOperand_toDigits])
  | setstate word | writew word =>
    exact readLine_writeLine_one rfl (by simp [spelled, Instr.mnemonic, dataOperand_toDigits])
  | set idx value =>
    exact readLine_writeLine_two rfl
      (by simp [spelled, Instr.mnemonic, indexOperand_toDigits, dataOperand_toDigits])

/-! ### Listings -/

theorem readCommands_map_writeLine (is : List Instr) : readCommands (is.map writeLine) = some is := by
  induction is with
  | nil => rfl
  | cons i is ih => rw [List.map_cons, readCommands, writtenLineIsReadBack i, ih]

/-- Settles O55: the header gives the parameters, and the lines after it are read back one by one. -/
theorem listingLoadsAsARun : Obligations.ListingLoadsAsARun := by
  intro header p is sr out hheader
  rw [loadListing, hheader, readCommands_map_writeLine]
  rfl

end Sys2Proof.Machine

/-! PROOF. What the three query commands answer, and that they change nothing else (40_query_ops R70 to R72). -/

namespace Sys2Proof

theorem ChipCount.toNat_mul_eight_mem (c : ChipCount) : c.toNat * 8 ∈ [8, 16, 24, 32, 40, 48, 56, 64] := by
  cases c <;> decide

/-- A word that fits in the addressable bits fits in the storage, and is not narrowed (R47, R72). -/
theorem Params.truncate_of_lt_dataWidth {p : Params} {w : Word} (hw : w.toNat < 2 ^ p.dataWidth) :
    p.truncate w = w := by
  have hfits : w.toNat < 2 ^ p.storageWidth :=
    hw.trans_le (Nat.pow_le_pow_right (by decide) p.dataWidth_le_storageWidth)
  apply BitVec.eq_of_toNat_eq
  rw [p.toNat_truncate, Nat.mod_eq_of_lt hfits]

namespace Machine

/-! ### The whole word -/

theorem responseOf_getstate_after_setstate (w : Word) (s : State) :
    responseOf .getstate (stateAfter (.setstate w) s) = s.params.truncate w :=
  stateAfter_word (.setstate w) s

/-- Settles O13: the response is the word as it stands, and the word after a SETSTATE is `trunc_SW(w)`. -/
theorem getstateAnswersTheWholeWord : Obligations.GetstateAnswersTheWholeWord := by
  refine ⟨rfl, fun _ _ => decode_commandWord .getstate rfl rfl, fun s => ?query, fun w s => ?roundTrip⟩
  case query =>
    exact ⟨stateAfter .getstate s, exec_eq _ s, rfl, fun _ _ => rfl, Memory.wf_iff.mp, stateAfter_word _ s,
      sameOutside_stateAfter rfl s⟩
  case roundTrip =>
    refine ⟨_, runCommands_pair _ _ s, ?_, fun hw => ?_⟩
    · rw [stateAfter_rsp, responseOf_getstate_after_setstate, Params.toNat_truncate]
    · rw [stateAfter_rsp, responseOf_getstate_after_setstate, Params.truncate_of_lt_dataWidth hw]

/-! ### One bit -/

/-- A truth value is answered in bit 0, the other bits being 0 (R56). -/
theorem getLsbD_truthResponse (b : Bool) (j : Nat) : (truthResponse b).getLsbD j = (decide (j = 0) && b) := by
  cases b with
  | false => simp [truthResponse]
  | true => simp [truthResponse, BitVec.getLsbD_one]

/-- Settles O12: the response is the truth value of the bit read, and none is read where the storage has none. -/
theorem getAnswersTheBit : Obligations.GetAnswersTheBit := by
  refine ⟨fun _ => rfl, fun idx _ => decode_commandWord (.get idx) rfl rfl, fun idx s => ?_⟩
  refine ⟨stateAfter (.get idx) s, exec_eq _ s, rfl, fun hidx => ?inStorage, fun hnone => ?outside, fun j hj => ?high,
    stateAfter_word _ s, sameOutside_stateAfter rfl s⟩
  case inStorage => rw [stateAfter_rsp, responseOf, getLsbD_truthResponse, readBit, if_pos hidx]; rfl
  case outside => rw [stateAfter_rsp, responseOf_of_storageWidth_le rfl hnone]
  case high =>
    have hj0 : j ≠ 0 := by omega
    rw [stateAfter_rsp, responseOf, getLsbD_truthResponse, decide_eq_false hj0, Bool.false_and]

/-! ### The data width -/

/-- The data width is small enough to be answered whole. -/
theorem toNat_responseOf_datawidth (s : State) :
    (responseOf .datawidth s).toNat = s.params.chips.toNat * 8 := by
  have hchips := s.params.chips.toNat_bounds
  rw [responseOf, Params.dataWidth_eq, BitVec.toNat_ofNat, Nat.mod_eq_of_lt (by omega)]

/-- Settles O11: the response is a number that `CHIPS` alone fixes, and the command writes nothing else. -/
theorem datawidthAnswersTheDataWidth : Obligations.DatawidthAnswersTheDataWidth := by
  refine ⟨rfl, fun _ _ => decode_commandWord .datawidth rfl rfl, fun s => ?_⟩
  have hrsp : (stateAfter .datawidth s).rsp.toNat = s.params.chips.toNat * 8 := toNat_responseOf_datawidth s
  refine ⟨stateAfter .datawidth s, exec_eq _ s, rfl, hrsp, ?range, fun hthree => ?three, stateAfter_word _ s,
    sameOutside_stateAfter rfl s⟩
  case range => rw [hrsp]; exact s.params.chips.toNat_mul_eight_mem
  case three =>
    apply BitVec.eq_of_toNat_eq
    rw [hrsp, hthree]
    rfl

end Machine

end Sys2Proof

/-! PROOF. What each single-bit command does to the word, bit by bit, what doing it again does, and what a GET then
answers (41_bit_ops R80 to R84). -/

namespace Sys2Proof.Machine

variable {i : Instr} {idx : Index} {s : State}

/-! ### The test of SET -/

/-- SET's test `data != 0` looks at the value as a 64-bit number (R47, R81). -/
theorem getLsbD_wordAfter_set_eq_ite (idx : Index) (value : Word) (s : State) (j : Nat) :
    (wordAfter (.set idx value) s).getLsbD j =
      if j = idx.toNat ∧ j < s.params.storageWidth then decide (0 < value.toNat) else s.word.getLsbD j := by
  rw [wordAfter_set]
  by_cases hvalue : value = 0
  · have hzero : ¬ 0 < value.toNat := by simp [hvalue]
    rw [if_neg (not_not_intro hvalue), decide_eq_false hzero]
    exact getLsbD_clearBit idx s j
  · have hpos : 0 < value.toNat := by bv_omega
    rw [if_pos hvalue, decide_eq_true hpos]
    exact getLsbD_raiseBit idx s j

/-! ### The one bit a command reaches -/

/-- A command with an index and without a response acts on one bit, so all that tells it from the others is the value
`b` it gives that bit (R80). -/
theorem exec_touches_one_bit {b : Bool} (hindex : i.index? = some idx) (hrsp : responseOf i s = 0)
    (hbit : idx.toNat < s.params.storageWidth → (wordAfter i s).getLsbD idx.toNat = b) :
    ∃ t, exec i s = .next t ∧ t.rspValid = true ∧ t.rsp = 0 ∧
      (idx.toNat < s.params.storageWidth → t.word.getLsbD idx.toNat = b) ∧
      (∀ j, j ≠ idx.toNat → t.word.getLsbD j = s.word.getLsbD j) ∧
      (s.params.storageWidth ≤ idx.toNat → t.word = s.word) ∧ SameOutside s t := by
  refine ⟨stateAfter i s, exec_eq i s, rfl, hrsp, ?_, ?_, ?_, sameOutside_stateAfter (commits_of_index? hindex) s⟩
  all_goals rw [stateAfter_word]
  · exact hbit
  · exact fun j hj => getLsbD_wordAfter_of_unreached hindex fun hreached => hj hreached.1
  · exact wordAfter_of_storageWidth_le hindex

/-- Settles O14: each of the four commands touches one bit, with its own value for it. -/
theorem singleBitCommandsTouchOneBit : Obligations.SingleBitCommandsTouchOneBit := by
  intro idx value s row hrow
  simp only [List.mem_cons, List.not_mem_nil, or_false] at hrow
  obtain rfl | rfl | rfl | rfl := hrow
  · exact exec_touches_one_bit rfl rfl fun hidx => getLsbD_wordAfter_set hidx value
  · exact exec_touches_one_bit rfl rfl getLsbD_wordAfter_sethigh
  · exact exec_touches_one_bit rfl rfl getLsbD_wordAfter_setlow
  · exact exec_touches_one_bit rfl rfl getLsbD_wordAfter_invertbit

/-! ### What a GET then reads -/

theorem readBit_stateAfter_sethigh (hidx : idx.toNat < s.params.storageWidth) :
    readBit idx (stateAfter (.sethigh idx) s) = true := by
  rw [readBit, stateAfter_params, if_pos hidx, stateAfter_word, getLsbD_wordAfter_sethigh hidx]

/-- Where the storage has no bit a GET reads 0 anyway (R38, R71). -/
theorem readBit_stateAfter_setlow (idx : Index) (s : State) :
    readBit idx (stateAfter (.setlow idx) s) = false := by
  rw [readBit, stateAfter_params, stateAfter_word]
  split
  · next hidx => exact getLsbD_wordAfter_setlow hidx
  · rfl

/-! ### The commands one by one -/

/-- Settles O15: SET is the state after SETHIGH or SETLOW, by the test of its value. -/
theorem setWritesTheNonzeroTest : Obligations.SetWritesTheNonzeroTest := by
  refine ⟨fun idx value => ⟨rfl, decode_commandWord (.set idx value) rfl rfl⟩,
    fun idx value s => ⟨?high, ?low, ?word⟩⟩
  case high => intro hvalue; rw [exec_eq, exec_eq, stateAfter_set, if_pos hvalue]
  case low => intro hvalue; rw [exec_eq, exec_eq, stateAfter_set, if_neg (not_not_intro hvalue)]
  case word =>
    refine ⟨stateAfter (.set idx value) s, exec_eq _ s, rfl, rfl, fun j => ?_, sameOutside_stateAfter rfl s⟩
    rw [stateAfter_word, getLsbD_wordAfter_set_eq_ite]

/-- Settles O16: the bit is raised, raising it again changes nothing, and an index below `DW` is one of the storage. -/
theorem sethighSetsOneBit : Obligations.SethighSetsOneBit := by
  refine ⟨fun idx => ⟨rfl, fun _ => decode_commandWord (.sethigh idx) rfl rfl⟩, fun idx s => ?_⟩
  refine ⟨stateAfter (.sethigh idx) s, exec_eq _ s, rfl, rfl, fun j => ?word, sameOutside_stateAfter rfl s, ?again,
    fun hidx => ⟨_, exec_eq _ _, ?get⟩⟩
  case word => rw [stateAfter_word]; exact getLsbD_raiseBit idx s j
  case again => rw [exec_eq, stateAfter_sethigh_idem]
  case get =>
    rw [stateAfter_rsp, responseOf, readBit_stateAfter_sethigh (hidx.trans_le s.params.dataWidth_le_storageWidth)]
    rfl

/-- Settles O17: the bit is cleared, clearing it again changes nothing, and it reads 0 at any index. -/
theorem setlowClearsOneBit : Obligations.SetlowClearsOneBit := by
  refine ⟨fun idx => ⟨rfl, fun _ => decode_commandWord (.setlow idx) rfl rfl⟩, fun idx s => ?_⟩
  refine ⟨stateAfter (.setlow idx) s, exec_eq _ s, rfl, rfl, fun j => ?word, sameOutside_stateAfter rfl s, ?again,
    ⟨_, exec_eq _ _, ?get⟩⟩
  case word => rw [stateAfter_word]; exact getLsbD_clearBit idx s j
  case again => rw [exec_eq, stateAfter_setlow_idem]
  case get => rw [stateAfter_rsp, responseOf, readBit_stateAfter_setlow]; rfl

/-- Settles O18: the bit is flipped, and flipping is an exclusive or with a mask, which undoes itself. -/
theorem invertbitFlipsOneBit : Obligations.InvertbitFlipsOneBit := by
  refine ⟨fun idx => ⟨rfl, fun _ => decode_commandWord (.invertbit idx) rfl rfl⟩, fun idx s => ?_⟩
  refine ⟨stateAfter (.invertbit idx) s, exec_eq _ s, rfl, rfl, fun j => ?word, sameOutside_stateAfter rfl s,
    ⟨_, exec_eq _ _, ?twice⟩⟩
  case word => rw [stateAfter_word]; exact getLsbD_flipBit idx s j
  case twice => rw [stateAfter_word, wordAfter_invertbit_twice]

end Sys2Proof.Machine

/-! PROOF. What each whole-word command leaves in the word, what a query then answers, and the identities among the
whole-word commands (42_bulk_ops R90 to R94). -/

namespace Sys2Proof

theorem Params.getLsbD_truncate_not (p : Params) (w : Word) (j : Nat) :
    (p.truncate (~~~w)).getLsbD j = (decide (j < p.storageWidth) && !w.getLsbD j) := by
  by_cases hsw : j < p.storageWidth
  · have h64 : j < 64 := hsw.trans_le p.storageWidth_le
    simp only [p.getLsbD_truncate, BitVec.getLsbD_not, hsw, h64, decide_true, Bool.true_and, Bool.and_true]
  · simp [hsw]

/-- The complement at width `SW` is an exclusive or with all ones, whatever stands above `SW` (R47, R92). -/
theorem Params.truncate_not (p : Params) (w : Word) : p.truncate (~~~w) = p.truncate w ^^^ p.allOnes := by
  apply BitVec.eq_of_getLsbD_eq
  intro j _
  rw [p.getLsbD_truncate_not, BitVec.getLsbD_xor, p.getLsbD_truncate, p.getLsbD_allOnes]
  cases w.getLsbD j <;> simp

theorem Params.truncate_ones (p : Params) : p.truncate 0xFFFFFFFFFFFFFFFF = p.allOnes :=
  BitVec.allOnes_and

/-- The complement as arithmetic, for a word of `SW` bits (R92). -/
theorem Params.toNat_truncate_not (p : Params) {w : Word} (hw : w.toNat < 2 ^ p.storageWidth) :
    (p.truncate (~~~w)).toNat = 2 ^ p.storageWidth - 1 - w.toNat := by
  apply Nat.eq_of_testBit_eq
  intro j
  rw [Nat.sub_sub, Nat.add_comm, Nat.testBit_two_pow_sub_succ hw, BitVec.testBit_toNat, p.getLsbD_truncate_not,
    BitVec.testBit_toNat]

namespace Machine

variable {i j : Instr} {s : State} {w : Word}

theorem Memory.wf.toNat_word_lt (hwf : Memory.wf s) : s.word.toNat < 2 ^ s.params.storageWidth := by
  rw [← hwf, Params.toNat_truncate]
  exact Nat.mod_lt _ (Nat.two_pow_pos _)

/-! ### What a GET then reads -/

theorem readBit_stateAfter_setallhigh (idx : Index) (s : State) :
    readBit idx (stateAfter .setallhigh s) = decide (idx.toNat < s.params.storageWidth) := by
  rw [readBit, stateAfter_params, stateAfter_word, wordAfter, Params.getLsbD_allOnes]
  split
  · rfl
  · next hidx => exact (decide_eq_false hidx).symm

theorem readBit_stateAfter_setalllow (idx : Index) (s : State) :
    readBit idx (stateAfter .setalllow s) = false := by
  simp [readBit, wordAfter]

/-! ### The commands one by one -/

/-- Settles O19: the word is all ones at width `SW`, and an index below `DW` is one of the storage. -/
theorem setallhighSetsEveryBit : Obligations.SetallhighSetsEveryBit := by
  refine ⟨rfl, fun _ _ => decode_commandWord .setallhigh rfl rfl, fun s => ?_⟩
  refine ⟨stateAfter .setallhigh s, exec_eq _ s, rfl, rfl, s.params.toNat_allOnes, sameOutside_stateAfter rfl s,
    fun idx hidx => ⟨_, exec_eq _ _, ?_⟩⟩
  have hstorage : idx.toNat < s.params.storageWidth := hidx.trans_le s.params.dataWidth_le_storageWidth
  rw [stateAfter_rsp, responseOf, readBit_stateAfter_setallhigh, decide_eq_true hstorage]
  rfl

/-- Settles O20: the word is the 0 of construction, of which every index reads 0. -/
theorem setalllowClearsEveryBit : Obligations.SetalllowClearsEveryBit := by
  refine ⟨rfl, fun _ _ => decode_commandWord .setalllow rfl rfl, fun s => ?_⟩
  refine ⟨stateAfter .setalllow s, exec_eq _ s, rfl, rfl, rfl, rfl, sameOutside_stateAfter rfl s,
    fun idx => ⟨_, exec_eq _ _, ?_⟩⟩
  rw [stateAfter_rsp, responseOf, readBit_stateAfter_setalllow]
  rfl

/-- Settles O21: the complement at width `SW`, bit by bit and as a number. -/
theorem invertallComplementsTheWord : Obligations.InvertallComplementsTheWord := by
  refine ⟨rfl, fun _ _ => decode_commandWord .invertall rfl rfl, fun s => ?_⟩
  refine ⟨stateAfter .invertall s, exec_eq _ s, rfl, rfl, fun j hj => ?flipped, fun j hj => ?above,
    sameOutside_stateAfter rfl s, fun hwf => ⟨?number, ⟨_, exec_eq _ _, ?twice⟩⟩⟩
  case flipped => rw [stateAfter_word, wordAfter, Params.getLsbD_truncate_not, decide_eq_true hj, Bool.true_and]
  case above =>
    rw [stateAfter_word, wordAfter, Params.getLsbD_truncate_not, decide_eq_false (Nat.not_lt.mpr hj), Bool.false_and]
  case number => rw [stateAfter_word, wordAfter, Params.toNat_truncate_not _ hwf.toNat_word_lt]
  case twice => rw [stateAfter_word, wordAfter_invertall_twice hwf]

/-- Settles O22: the word is `trunc_SW(w)`, which GETSTATE answers. -/
theorem setstateStoresTheNarrowedWord : Obligations.SetstateStoresTheNarrowedWord := by
  refine ⟨fun w => ⟨rfl, fun _ => decode_commandWord (.setstate w) rfl rfl⟩, fun w s => ?_⟩
  refine ⟨stateAfter (.setstate w) s, exec_eq _ s, rfl, rfl, s.params.toNat_truncate w, fun j hj => ?kept,
    sameOutside_stateAfter rfl s, ⟨_, exec_eq _ _, ?getstate⟩⟩
  case kept => rw [stateAfter_word, wordAfter, Params.getLsbD_truncate, decide_eq_true hj, Bool.and_true]
  case getstate => rw [stateAfter_rsp, responseOf_getstate_after_setstate, Params.toNat_truncate]

/-! ### Commands told apart by the word alone -/

/-- The outcome of a command without a commit and with response 0 is known by the word it leaves. -/
theorem exec_eq_setWord (hquiet : i.commits = false) (hrsp : responseOf i s = 0) (hword : wordAfter i s = w) :
    exec i s = .next ((s.setWord w).respond 0) := by
  rw [exec_eq, stateAfter_quiet i s hquiet, hrsp, hword]

/-- So is the outcome of two commands, since the second replaces the response of the first. -/
theorem runCommands_pair_eq_setWord (hi : i.commits = false) (hj : j.commits = false)
    (hrsp : responseOf j (stateAfter i s) = 0) (hword : wordAfter j (stateAfter i s) = w) :
    runCommands [i, j] s = .next ((s.setWord w).respond 0) := by
  rw [runCommands_pair, stateAfter_quiet j _ hj, hrsp, hword, stateAfter_quiet i s hi]
  rfl

/-! ### INVERTBIT at each index of a list -/

/-- INVERTBIT at each index of a list, in the order of the list (R93). -/
def invertbits (ns : List Nat) : List Instr := ns.map fun n => .invertbit (BitVec.ofNat 8 n)

/-- The exclusive or of the masks of those indices. -/
def flipMask (p : Params) : List Nat → Word
  | [] => 0
  | n :: ns => bitMask p (BitVec.ofNat 8 n) ^^^ flipMask p ns

/-- The masks add up in the word. The list is not empty: with no command the old response would stay. -/
theorem runCommands_invertbits_cons (n : Nat) (ns : List Nat) (s : State) :
    runCommands (invertbits (n :: ns)) s =
      .next ((s.setWord (s.word ^^^ flipMask s.params (n :: ns))).respond 0) := by
  induction ns generalizing n s with
  | nil => exact exec_eq_setWord (i := .invertbit _) rfl rfl (by simp [wordAfter, flipMask])
  | cons m ns ih =>
    rw [invertbits, List.map_cons, runCommands_cons]
    refine (ih m _).trans ?_
    rw [stateAfter_params, stateAfter_word, wordAfter, BitVec.xor_assoc]
    rfl

/-- Among different indices of the storage each mask reaches a bit of its own. -/
theorem getLsbD_flipMask {p : Params} {ns : List Nat} (hnodup : ns.Nodup) (hns : ∀ n ∈ ns, n < p.storageWidth)
    (k : Nat) : (flipMask p ns).getLsbD k = decide (k ∈ ns) := by
  induction ns with
  | nil => simp [flipMask]
  | cons n ns ih =>
    obtain ⟨hn, hrest⟩ := List.forall_mem_cons.mp hns
    obtain ⟨hfresh, hnodup⟩ := List.nodup_cons.mp hnodup
    have hsw := p.storageWidth_le
    have hidx : (BitVec.ofNat 8 n).toNat = n := by rw [BitVec.toNat_ofNat]; omega
    rw [flipMask, BitVec.getLsbD_xor, getLsbD_bitMask, hidx, ih hnodup hrest]
    by_cases hk : k = n
    · subst hk; simp [hn, hfresh]
    · simp [hk]

theorem flipMask_of_perm_range {p : Params} {order : List Nat} (hperm : order.Perm (List.range p.storageWidth)) :
    flipMask p order = p.allOnes := by
  have hmem (n : Nat) : n ∈ order ↔ n < p.storageWidth := hperm.mem_iff.trans List.mem_range
  apply BitVec.eq_of_getLsbD_eq
  intro k _
  rw [getLsbD_flipMask (hperm.nodup_iff.mpr List.nodup_range) (fun n => (hmem n).mp), p.getLsbD_allOnes,
    decide_eq_decide]
  exact hmem k

theorem runCommands_invertbits_of_perm_range {order : List Nat}
    (hperm : order.Perm (List.range s.params.storageWidth)) :
    runCommands (invertbits order) s = .next ((s.setWord (s.word ^^^ s.params.allOnes)).respond 0) := by
  cases order with
  | nil =>
    have hpos := s.params.chips.toNat_bounds
    have hle := s.params.dataWidth_le_storageWidth
    have hlen := hperm.length_eq
    rw [Params.dataWidth_eq] at hle
    rw [List.length_range, List.length_nil] at hlen
    omega
  | cons n ns => rw [runCommands_invertbits_cons, flipMask_of_perm_range hperm]

/-- Settles O27: the two sides leave the same word, by the algebra of the complement and of the masks. -/
theorem wholeWordIdentities : Obligations.WholeWordIdentities := by
  intro s
  have hlow : exec .setalllow s = .next ((s.setWord 0).respond 0) := exec_eq_setWord rfl rfl rfl
  have hhigh : exec .setallhigh s = .next ((s.setWord s.params.allOnes).respond 0) := exec_eq_setWord rfl rfl rfl
  refine ⟨?lowInverted, ?highInverted, ?high, ?low, fun hwf order hperm => ?bitByBit⟩
  case lowInverted =>
    rw [hhigh]
    exact runCommands_pair_eq_setWord rfl rfl rfl ((s.params.truncate_not 0).trans (by simp))
  case highInverted =>
    rw [hlow]
    exact runCommands_pair_eq_setWord rfl rfl rfl ((s.params.truncate_not s.params.allOnes).trans (by simp))
  case high => exact hhigh.trans (exec_eq_setWord (i := .setstate _) rfl rfl s.params.truncate_ones).symm
  case low => exact hlow.trans (exec_eq_setWord (i := .setstate _) rfl rfl s.params.truncate_zero).symm
  case bitByBit =>
    have hword : wordAfter .invertall s = s.word ^^^ s.params.allOnes := by rw [wordAfter, Params.truncate_not, hwf]
    exact (runCommands_invertbits_of_perm_range hperm).trans (exec_eq_setWord rfl rfl hword).symm

end Machine

end Sys2Proof

/-! PROOF. What the lines carry: one event, a pulse, a byte and a whole commit; and what the two commit commands send,
store and leave alone (43_commit_ops R100 to R111). -/

namespace Sys2Proof

theorem Instr.commits_iff (i : Instr) : i.commits = true ↔ i = .write ∨ ∃ w, i = .writew w := by
  cases i <;> simp [Instr.commits]

/-- Narrowing keeps the addressable bits (R5, R47). -/
theorem Params.getLsbD_truncate_of_lt_dataWidth {p : Params} {j : Nat} (hj : j < p.dataWidth) (w : Word) :
    (p.truncate w).getLsbD j = w.getLsbD j := by
  rw [p.getLsbD_truncate, decide_eq_true (hj.trans_le p.dataWidth_le_storageWidth), Bool.and_true]

namespace Machine

/-! ### A command that commits -/

section Commits

variable {i : Instr} (hc : i.commits = true) (s : State)
include hc

theorem stateAfter_trace_of_commits :
    (stateAfter i s).trace = s.trace ++ commitEvents s.params.chips.toNat (wordAfter i s) := by
  rw [stateAfter_trace, if_pos hc]

theorem stateAfter_lines_of_commits :
    (stateAfter i s).lines = ⟨(wordAfter i s).getLsbD (8 * s.params.chips.toNat - 8), false, false⟩ := by
  rw [stateAfter_lines, if_pos hc]

end Commits

/-! ### One event -/

/-- Settles O33: the fields after `drive`, and the trace of a command, which grows by a whole commit or not at all. -/
theorem driveSetsOneLineAndRecordsTheEvent : Obligations.DriveSetsOneLineAndRecordsTheEvent := by
  refine ⟨fun line level s => ⟨?self, fun other hother => ?other, drive_trace line level s, drive_word line level s⟩,
    fun i s t hexec => ?command⟩
  case self => rw [drive_lines, LineBits.get_put_self]
  case other => rw [drive_lines, LineBits.get_put_ne line level _ hother]
  case command =>
    obtain rfl := exec_next_iff.mp hexec
    cases hc : i.commits with
    | false => rw [stateAfter_quiet i s hc]; exact .inl rfl
    | true =>
      refine .inr ⟨i.commits_iff.mp hc, ?_⟩
      rw [stateAfter_trace_of_commits hc, List.length_append, length_commitEvents]

/-! ### A pulse -/

theorem pulseClock_eq_replay (s : State) : pulseClock s = replay clockPulse s := rfl

theorem pulseLatch_eq_replay (s : State) : pulseLatch s = replay latchPulse s := rfl

theorem risingEdges_clockPulse {l : LineBits} (hlow : l.clock = false) : risingEdges .clock l clockPulse = 1 := by
  simp [risingEdges, clockPulse, LineBits.get, LineBits.put, hlow]

theorem risingEdges_latchPulse {l : LineBits} (hlow : l.latch = false) : risingEdges .latch l latchPulse = 1 := by
  simp [risingEdges, latchPulse, LineBits.get, LineBits.put, hlow]

theorem pulseClock_sr {s : State} (hlow : s.lines.clock = false) :
    (pulseClock s).sr = shiftStages s.lines.data s.sr := by
  simp [pulseClock, drive_sr, hlow]

theorem pulseLatch_out {s : State} (hlow : s.lines.latch = false) : (pulseLatch s).out = s.sr := by
  simp [pulseLatch, drive_out, hlow]

theorem pulseClock_out (s : State) : (pulseClock s).out = s.out := by simp [pulseClock, drive_out]

theorem pulseLatch_sr (s : State) : (pulseLatch s).sr = s.sr := by simp [pulseLatch, drive_sr]

/-- Settles O34: a pulse is the replay of its two events, of which the chain acts on the first. -/
theorem pulsesRiseOnceAndEndLow : Obligations.PulsesRiseOnceAndEndLow := by
  intro s
  refine ⟨⟨?clockTrace, ?clockLines, fun hlow => ⟨risingEdges_clockPulse hlow, pulseClock_sr hlow⟩, pulseClock_out s⟩,
    ⟨?latchTrace, ?latchLines, fun hlow => ⟨risingEdges_latchPulse hlow, pulseLatch_out hlow⟩, pulseLatch_sr s⟩⟩
  case clockTrace => exact replay_trace s clockPulse
  case clockLines => exact replay_lines s clockPulse
  case latchTrace => exact replay_trace s latchPulse
  case latchLines => exact replay_lines s latchPulse

/-! ### A byte -/

/-- The events of a byte, most significant bit first (R103). -/
def msbFirstEvents (b : Byte) : List LineEvent :=
  [7, 6, 5, 4, 3, 2, 1, 0].flatMap fun k => ⟨.data, b.getLsbD k⟩ :: clockPulse

theorem shiftOutByteMsbFirst_eq_replay (b : Byte) (s : State) :
    shiftOutByteMsbFirst b s = replay (msbFirstEvents b) s := rfl

/-- Settles O35: a byte is the replay of its events, and these drive the data line to bit 0 and the clock low last. -/
theorem byteIsSentMostSignificantBitFirst : Obligations.ByteIsSentMostSignificantBitFirst := by
  intro b s
  rw [shiftOutByteMsbFirst_eq_replay]
  exact ⟨replay_trace s _, replay_lines s _, replay_word s _⟩

/-! ### The edges of a commit -/

section Edges

variable {line : Line} {es : List LineEvent}

/-- A listener samples once at every rising clock edge (R110). -/
theorem risingEdges_clock (es : List LineEvent) (l : LineBits) :
    risingEdges .clock l es = (sampledBits l es).length := by
  induction es generalizing l with
  | nil => rfl
  | cons e es ih =>
    rw [risingEdges, sampledBits, ih, LineBits.get]
    split
    · rw [List.length_cons, Nat.add_comm]
    · rw [Nat.zero_add]

theorem risingEdges_append (line : Line) (es fs : List LineEvent) (l : LineBits) :
    risingEdges line l (es ++ fs) = risingEdges line l es + risingEdges line (levelsAfter es l) fs := by
  induction es generalizing l with
  | nil => exact (Nat.zero_add _).symm
  | cons e es ih => rw [List.cons_append, risingEdges, risingEdges, ih, Nat.add_assoc]; rfl

theorem risingEdges_of_not_driven (h : ∀ e ∈ es, e.line ≠ line) (l : LineBits) : risingEdges line l es = 0 := by
  induction es generalizing l with
  | nil => rfl
  | cons e es ih =>
    obtain ⟨he, hes⟩ := List.forall_mem_cons.mp h
    rw [risingEdges, if_neg fun hrise => he hrise.1, ih hes]

theorem get_levelsAfter_of_not_driven (h : ∀ e ∈ es, e.line ≠ line) (l : LineBits) :
    (levelsAfter es l).get line = l.get line := by
  induction es generalizing l with
  | nil => rfl
  | cons e es ih =>
    obtain ⟨he, hes⟩ := List.forall_mem_cons.mp h
    exact (ih hes _).trans (LineBits.get_put_ne e.line e.level l he.symm)

end Edges

theorem risingEdges_clock_commitEvents (c : ChipCount) (w : Word) {l : LineBits} (hclock : l.clock = false) :
    risingEdges .clock l (commitEvents c.toNat w) = 8 * c.toNat := by
  rw [risingEdges_clock, sampledBits_commitEvents c w l hclock, List.length_map, List.length_range]

/-- The bytes do not drive the latch line, so the latch pulse finds it low (R105). -/
theorem risingEdges_latch_commitEvents (chips : Nat) (w : Word) {l : LineBits} (hlatch : l.latch = false) :
    risingEdges .latch l (commitEvents chips w) = 1 := by
  have hbytes : ∀ e ∈ shiftEvents chips w, e.line ≠ .latch := fun _ => line_ne_latch_of_mem_shiftEvents
  have hlow : (levelsAfter (shiftEvents chips w) l).latch = false :=
    (get_levelsAfter_of_not_driven hbytes l).trans hlatch
  rw [commitEvents_eq_append, risingEdges_append, risingEdges_of_not_driven hbytes, risingEdges_latchPulse hlow]

/-- Settles O36: the events are those a commit replays, and their edges are the lemmas above. -/
theorem commitPutsTheEventsInOrder : Obligations.CommitPutsTheEventsInOrder := by
  refine ⟨fun s => ⟨serialize_word s, serialize_trace s⟩,
    fun c w => ⟨length_commitEvents c w, fun l hclock hlatch => ?_⟩⟩
  exact ⟨risingEdges_clock_commitEvents c w hclock, risingEdges_latch_commitEvents c.toNat w hlatch⟩

/-! ### What the events and the lines depend on -/

/-- Settles O39: the events of a commit from `t` are those of a commit from `s`, as the words agree below `DW`. -/
theorem storageOnlyBitsAreNeverSent : Obligations.StorageOnlyBitsAreNeverSent := by
  intro s t hchips hbits
  refine ⟨commitEvents s.params.chips.toNat s.word, serialize_trace s, ?_⟩
  rw [serialize_trace t, commitEvents_congr hbits, hchips]

/-- Settles O38: by whether the command commits. -/
theorem linesAfterACommit : Obligations.LinesAfterACommit := by
  intro i s t hexec
  obtain rfl := exec_next_iff.mp hexec
  rw [← i.commits_iff, stateAfter_word]
  exact ⟨fun hc => stateAfter_lines_of_commits hc s, fun hc => by rw [stateAfter_lines, if_neg hc]⟩

/-! ### WRITE -/

theorem stateAfter_write (s : State) : stateAfter .write s = (serialize s).respond 0 := rfl

theorem sameInside_stateAfter_write (s : State) : SameInside s (stateAfter .write s) :=
  ⟨stateAfter_params _ s, stateAfter_word _ s, stateAfter_oe _ s, stateAfter_pending _ s⟩

/-- A chain of `CHIPS` registers holds exactly the bits of a commit, the one sent last nearest (R136). -/
theorem serialize_sr_of_length_eq {s : State} (hlength : s.sr.length = 8 * s.params.chips.toNat)
    (hclock : s.lines.clock = false) :
    (serialize s).sr = ((List.range (8 * s.params.chips.toNat)).map (sentBit s.word)).reverse := by
  rw [serialize_sr s hclock, List.take_left' (by simp [hlength])]

theorem serialize_serialize_sr {s : State} (hlength : s.sr.length = 8 * s.params.chips.toNat)
    (hclock : s.lines.clock = false) : (serialize (serialize s)).sr = (serialize s).sr := by
  have hlength' : (serialize s).sr.length = 8 * (serialize s).params.chips.toNat := by
    rw [serialize_sr_length, serialize_params, hlength]
  have hclock' : (serialize s).lines.clock = false := by rw [serialize_lines]
  rw [serialize_sr_of_length_eq hlength' hclock', serialize_sr_of_length_eq hlength hclock, serialize_params,
    serialize_word]

theorem stateAfter_write_twice (s : State) :
    stateAfter .write (stateAfter .write s) = (serialize (serialize s)).respond 0 := by
  rw [stateAfter_write, stateAfter_write, serialize_respond]
  rfl

/-- Settles O23: WRITE is one commit, and the second commit sends the same word, which a chain of `CHIPS` registers
already holds. -/
theorem writeSendsTheStateWord : Obligations.WriteSendsTheStateWord := by
  refine ⟨rfl, fun _ _ => decode_commandWord .write rfl rfl, fun s => ?_⟩
  refine ⟨stateAfter .write s, exec_eq _ s, rfl, rfl, sameInside_stateAfter_write s, serialize_trace s,
    serialize_lines s, stateAfter .write (stateAfter .write s), exec_eq _ _, ?again, fun hfit hclock hlatch => ?chain⟩
  case again => rw [stateAfter_trace_of_commits rfl, stateAfter_params, wordAfter, stateAfter_word, wordAfter]
  case chain =>
    obtain ⟨hnreg, hsr, _⟩ := hfit
    have hstages : (serialize (serialize s)).sr = (serialize s).sr :=
      serialize_serialize_sr (hsr.trans (by rw [hnreg])) hclock
    have hlatch' : (serialize s).lines.latch = false := by rw [serialize_lines]
    rw [stateAfter_write_twice, stateAfter_write]
    exact ⟨hstages, (serialize_out _ hlatch').trans (hstages.trans (serialize_out s hlatch).symm)⟩

/-! ### WRITEW -/

/-- What a commit sends of a narrowed word is what it sends of the word, as no bit above `DW` is sent (R108). -/
theorem commitEvents_truncate (p : Params) (w : Word) :
    commitEvents p.chips.toNat (p.truncate w) = commitEvents p.chips.toNat w :=
  commitEvents_congr fun _ hj => Params.getLsbD_truncate_of_lt_dataWidth hj w

/-- Settles O24: the word is narrowed and stored, and what is sent of it is not touched by the narrowing. -/
theorem writewStoresThenSends : Obligations.WritewStoresThenSends := by
  refine ⟨fun w => ⟨rfl, fun _ => decode_commandWord (.writew w) rfl rfl⟩, fun w s => ?_⟩
  refine ⟨stateAfter (.writew w) s, exec_eq _ s, ?twoCommands, rfl, rfl, ?word, stateAfter_params _ s,
    stateAfter_oe _ s, stateAfter_pending _ s, ?trace, ?lines⟩
  case twoCommands => rw [runCommands_pair, ← stateAfter_writew]
  case word => rw [stateAfter_word, wordAfter, Params.toNat_truncate]
  case trace => rw [stateAfter_trace_of_commits (i := .writew w) rfl, wordAfter, commitEvents_truncate]
  case lines =>
    have hsent : 8 * s.params.chips.toNat - 8 < s.params.dataWidth := by
      have hchips := s.params.chips.toNat_bounds
      rw [Params.dataWidth_eq]
      omega
    rw [stateAfter_lines_of_commits (i := .writew w) rfl, wordAfter, Params.getLsbD_truncate_of_lt_dataWidth hsent]

end Machine

end Sys2Proof

/-! PROOF. That nothing hangs and nothing faults, for one command, for a step with none and for a run, and what the
chain of shift registers does at an edge and after a commit (60_exceptions R120 to R142). -/

namespace Sys2Proof.Machine

/-! ### Commands, steps and runs complete -/

/-- Settles O32: the state after the command is the one of `exec_eq`. -/
theorem everyCommandCompletes : Obligations.EveryCommandCompletes := fun i s =>
  ⟨stateAfter i s, exec_eq i s, stateAfter_rspValid i s, stateAfter_params i s, stateAfter_oe i s,
    stateAfter_pending i s⟩

theorem run_succ_of_step_eq_next {M : Host.Core} {s t : M.State} (h : M.step s = .next t) (n : Nat) :
    M.run (n + 1) s = M.run n t := by
  rw [Host.Core.run, h]

section Step

variable {s : State}

theorem step_of_pending_nil (hpins : s.params.pinsDistinct = true) (hpend : s.pending = []) : step s = .next s := by
  have htake : s.take = .idle := by simp [State.take, hpins, hpend]
  rw [step, htake]

/-- One step of a run of known opcodes: it completes, the parameters stay, and a word is gone while there was one. -/
theorem exists_step_of_accepted (hpins : s.params.pinsDistinct = true) (hknown : s.pending.all acceptedWord = true) :
    ∃ t, step s = .next t ∧ t.params = s.params ∧ t.pending = s.pending.tail := by
  cases hpend : s.pending with
  | nil => exact ⟨s, step_of_pending_nil hpins hpend, rfl, hpend⟩
  | cons cmd rest =>
    have haccepted : acceptedWord cmd = true := List.all_eq_true.mp hknown cmd (by simp [hpend])
    obtain ⟨i, hdec, _⟩ := decode_of_opField_lt (of_decide_eq_true haccepted)
    exact ⟨stateAfter i (s.setPending rest), (step_of_decode hpins hpend hdec).trans (exec_eq _ _),
      stateAfter_params _ _, stateAfter_pending _ _⟩

end Step

/-- Settles O7: with distinct pins and an empty list the port is idle. -/
theorem stepWithoutCommandHoldsTheState : Obligations.StepWithoutCommandHoldsTheState :=
  fun _ hpins hpend => step_of_pending_nil hpins hpend

/-- Settles O53, by induction on the number of steps: a step leaves distinct pins and known opcodes. -/
theorem runsOfKnownCommandsComplete : Obligations.RunsOfKnownCommandsComplete := by
  intro n
  induction n with
  | zero => exact fun s _ _ => ⟨s, rfl, rfl⟩
  | succ n ih =>
    intro s hpins hknown
    obtain ⟨t, hstep, hparams, hpend⟩ := exists_step_of_accepted hpins hknown
    have hknown' : t.pending.all acceptedWord = true :=
      List.all_eq_true.mpr fun cmd hcmd => List.all_eq_true.mp hknown cmd (List.mem_of_mem_tail (hpend ▸ hcmd))
    obtain ⟨u, hrun, hdrop⟩ := ih t (hparams ▸ hpins) hknown'
    exact ⟨u, (run_succ_of_step_eq_next (M := core) hstep n).trans hrun, by rw [hdrop, hpend, List.drop_tail]⟩

/-! ### The chain at an edge -/

section Edge

variable {level : Bool} {sr : List Bool}

theorem getElem?_shiftStages_zero (h : 0 < sr.length) : (shiftStages level sr)[0]? = some level := by
  rw [shiftStages, List.getElem?_take_of_lt h, List.getElem?_cons_zero]

theorem getElem?_shiftStages_succ {j : Nat} (h : j + 1 < sr.length) :
    (shiftStages level sr)[j + 1]? = sr[j]? := by
  rw [shiftStages, List.getElem?_take_of_lt h, List.getElem?_cons_succ]

variable {line : Line} {s : State}

theorem drive_sr_of_not_rising (h : ¬(line = .clock ∧ s.lines.clock = false ∧ level = true)) :
    (drive line level s).sr = s.sr := by
  rw [drive_sr, if_neg h]

theorem drive_out_of_not_rising (h : ¬(line = .latch ∧ s.lines.latch = false ∧ level = true)) :
    (drive line level s).out = s.out := by
  rw [drive_out, if_neg h]

theorem drive_clock_sr_of_low (hlow : s.lines.clock = false) :
    (drive .clock true s).sr = shiftStages s.lines.data s.sr := by
  rw [drive_sr, if_pos ⟨rfl, hlow, rfl⟩]

theorem drive_latch_out_of_low (hlow : s.lines.latch = false) : (drive .latch true s).out = s.sr := by
  rw [drive_out, if_pos ⟨rfl, hlow, rfl⟩]

end Edge

/-- Settles O42: each array of the chain has its one event. -/
theorem otherEventsLeaveTheChainAlone : Obligations.OtherEventsLeaveTheChainAlone :=
  fun _ _ _ => ⟨drive_sr_of_not_rising, drive_out_of_not_rising⟩

/-- Settles O40: the stages are those of `shiftStages`, and the clock is not the latch line. -/
theorem risingClockShiftsTheStages : Obligations.RisingClockShiftsTheStages := by
  intro s hlow
  rw [drive_clock_sr_of_low hlow]
  exact ⟨shiftStages_length _ _, getElem?_shiftStages_zero, fun _ => getElem?_shiftStages_succ,
    drive_out_of_not_rising (by simp)⟩

/-- Settles O41: the outputs load, and the latch is not the clock line. -/
theorem risingLatchLoadsTheOutputs : Obligations.RisingLatchLoadsTheOutputs :=
  fun _ hlow => ⟨drive_latch_out_of_low hlow, drive_sr_of_not_rising (by simp)⟩

/-! ### A commit on a chain of any length -/

section AnyLength

variable {s : State} (hclock : s.lines.clock = false)
include hclock

/-- Within the reach of a commit, register `q` holds byte `CHIPS-1-q` (R137). -/
theorem getElem?_serialize_sr_of_lt_dataWidth {q k : Nat} (hk : k < 8) (hreach : 8 * q + k < s.params.dataWidth)
    (hstage : 8 * q + k < s.sr.length) :
    (serialize s).sr[8 * q + k]? = some (s.word.getLsbD (8 * (s.params.chips.toNat - 1 - q) + k)) := by
  rw [Params.dataWidth_eq] at hreach
  have hregister : s.params.chips.toNat - 1 - (s.params.chips.toNat - 1 - q) = q := by omega
  have hplaced := getElem?_serialize_sr hclock (j := s.params.chips.toNat - 1 - q) (by omega) hk
    (by rwa [hregister])
  rwa [hregister] at hplaced

/-- Beyond the reach of a commit a stage holds what the stage `DW` nearer held (R137). -/
theorem getElem?_serialize_sr_of_dataWidth_le {j : Nat} (hbeyond : s.params.dataWidth ≤ j)
    (hstage : j < s.sr.length) : (serialize s).sr[j]? = s.sr[j - s.params.dataWidth]? := by
  have hsent : (((List.range (8 * s.params.chips.toNat)).map (sentBit s.word)).reverse).length =
      s.params.dataWidth := by
    rw [List.length_reverse, List.length_map, List.length_range, Params.dataWidth_eq, Nat.mul_comm]
  rw [serialize_sr s hclock, List.getElem?_take_of_lt hstage, List.getElem?_append_right (hsent ▸ hbeyond), hsent]

end AnyLength

/-- The two commits of R137, each with the word it sends: it commits, and stores the addressable bits of that word. -/
theorem commits_and_wordAfter_of_mem {s : State} {w : Word} {row : Instr × Word}
    (hrow : row ∈ [(Instr.write, s.word), (.writew w, w)]) :
    row.1.commits = true ∧ ∀ j, j < s.params.dataWidth → (wordAfter row.1 s).getLsbD j = row.2.getLsbD j := by
  simp only [List.mem_cons, List.not_mem_nil, or_false] at hrow
  obtain rfl | rfl := hrow
  · exact ⟨rfl, fun _ _ => rfl⟩
  · exact ⟨rfl, fun _ hj => Params.getLsbD_truncate_of_lt_dataWidth hj w⟩

/-- Settles O45: either command is a commit of the word it stores, which agrees below `DW` with the word it is given. -/
theorem commitOnAChainOfAnyLength : Obligations.CommitOnAChainOfAnyLength := by
  intro s w hlength hclock hlatch row hrow
  obtain ⟨hcommits, hsent⟩ := commits_and_wordAfter_of_mem hrow
  refine ⟨stateAfter row.1 s, exec_eq _ s, ?_⟩
  rw [stateAfter_of_commits hcommits]
  refine ⟨serialize_out _ hlatch, (serialize_sr_length _).trans hlength, fun q k hk hreach hstage => ?reached,
    fun j hbeyond hstage => ?beyond⟩
  case reached =>
    have hbit : 8 * (s.params.chips.toNat - 1 - q) + k < s.params.dataWidth := by
      rw [Params.dataWidth_eq] at hreach ⊢
      omega
    rw [← hsent _ hbit]
    exact getElem?_serialize_sr_of_lt_dataWidth (s := s.setWord (wordAfter row.1 s)) hclock hk hreach
      (hstage.trans_eq hlength.symm)
  case beyond =>
    exact getElem?_serialize_sr_of_dataWidth_le (s := s.setWord (wordAfter row.1 s)) hclock hbeyond
      (hstage.trans_eq hlength.symm)

end Sys2Proof.Machine

/-! PROOF. What reset leaves, and the first commit after it, which sends the word 0 through the whole chain
(70_reset_and_hazards R150, R152, R154). -/

namespace Sys2Proof.Machine

/-- Settles O48: `State.reset` is a construction too, so each value is the constructor's. -/
theorem resetLeavesTheStatedValues : Obligations.ResetLeavesTheStatedValues := by
  refine ⟨?constructed, State.construct_word _ _ _, State.construct_oe _ _ _, State.construct_lines _ _ _,
    State.construct_trace _ _ _⟩
  case constructed =>
    rintro p sr out _ rfl
    exact ⟨State.construct_word p sr out, State.construct_oe p sr out, State.construct_lines p sr out,
      State.construct_trace p sr out, State.construct_sr p sr out, State.construct_out p sr out,
      State.construct_params p sr out⟩

theorem sentBit_zero (t : Nat) : sentBit 0 t = false := BitVec.getLsbD_zero

/-- A commit of the word 0 leaves no stage of a chain of `CHIPS` registers high, whatever was there (R136). -/
theorem serialize_sr_of_word_eq_zero {s : State} (hlength : s.sr.length = 8 * s.params.chips.toNat)
    (hclock : s.lines.clock = false) (hword : s.word = 0) :
    (serialize s).sr = List.replicate (8 * s.params.chips.toNat) false := by
  rw [serialize_sr_of_length_eq hlength hclock, hword, funext sentBit_zero, List.map_const', List.length_range,
    List.reverse_replicate]

/-- Settles O46: reset leaves the word 0 and the lines low, so WRITE clocks a 0 into every stage and latches it. -/
theorem firstCommitDefinesTheOutputs : Obligations.FirstCommitDefinesTheOutputs := by
  intro p sr out hfit
  obtain ⟨hnreg, hsr, _⟩ := hfit
  have hstages : (serialize (State.construct p sr out)).sr = List.replicate (8 * p.nreg) false := by
    rw [serialize_sr_of_word_eq_zero (hsr.trans (by rw [hnreg])) rfl rfl, ← hnreg, State.construct_params]
  refine ⟨stateAfter .write (State.construct p sr out), exec_eq _ _, ?_, hstages⟩
  rw [stateAfter_write]
  exact (serialize_out _ rfl).trans hstages

end Sys2Proof.Machine
